-- ==== Sys2Proof/Word.lean ====
section
/-! DEFINITION. The words of the machine (00_scope.md R8): every value is an unsigned integer of a stated width. -/

namespace Sys2Proof

/-- A general register, a timer, a byte of memory. -/
abbrev Byte := BitVec 8

/-- The width of PC, I, a return address and an opcode (00_scope.md R6). -/
abbrev Word := BitVec 16

/-- The number of a general register V0..VF (10_state.md R20). -/
abbrev Reg := Fin 16

/-- VF, the general register that also receives every flag (10_state.md R21). -/
abbrev VF : Reg := 15

end Sys2Proof
end

