-- ==== Sys2Proof/Config.lean ====
section
/-! DEFINITION. The parameters of 00_scope.md R6, and the free values of the model: the inputs of a step that the
state does not fix. -/

namespace Sys2Proof.Config

/-- `MEM_SIZE`: addresses 0x000 to 0xFFF. -/
abbrev memSize : Nat := 4096

/-- `DISPLAY_W`: columns of the framebuffer. -/
abbrev displayW : Nat := 64

/-- `DISPLAY_H`: rows of the framebuffer. -/
abbrev displayH : Nat := 32

/-- `TIMER_PERIOD` in nanoseconds: 17 ms (decision D12, conflict C3). -/
abbrev timerPeriod : Nat := 17000000

/-- `FONT_BASE`: where the font convention puts glyph 0. -/
abbrev fontBase : Nat := 0x050

/-- `FONT_GLYPH_BYTES`: the bytes of one glyph. -/
abbrev fontGlyphBytes : Nat := 5

/-- The length of the buffer `write_font` takes: 16 glyphs (70_reset_and_hazards.md R264). -/
abbrev fontBytes : Nat := 80

/-- `PROGRAM_BASE`: where `load_program` writes. -/
abbrev programBase : Nat := 0x200

/-- `PROGRAM_MAX`: the longest program `load_program` takes. -/
abbrev programMax : Nat := 2048

/-- `RESET_PC`, the entry point (decision D16). -/
abbrev resetPc : Word := 0x200

/-- What a byte of memory holds at reset (70_reset_and_hazards.md R260), so what an unlisted address reads as. -/
abbrev resetByte : Byte := 0x00

/-- FREE VALUE: `key_input` of the n-th step transaction when the state lines none up (60_exceptions.md R240;
log entry 1). -/
opaque freeKeys : Nat → BitVec 16

/-- FREE VALUE: `elapsed`, in whole nanoseconds, of the n-th step transaction when the state lines none up (log entry 1). -/
opaque freeElapsed : Nat → Nat

/-- FREE VALUE: the random byte of the n-th step transaction when the state lines none up (60_exceptions.md R236;
log entries 1 and 2). -/
opaque freeRnd : Nat → Byte

end Sys2Proof.Config
end

