-- ==== Sys2Proof/WellFormed.lean ====
section
/-! DEFINITION. Well-formedness. An instruction's operands carry their widths in their types (30_encoding.md R70), so
every term of `Instr` is one the decoder can give and no check on it is left. What the types do not carry is the length
of the buffers the host hands over (70_reset_and_hazards.md R264, R265): those are the checks. -/

namespace Sys2Proof

/-- Every operand of an instruction fits its field of R76 by its type; the list of constructors is the check. -/
def Instr.wellFormed : Instr → Bool
  | .cls | .ret => true
  | .jp _ | .call _ | .ldI _ | .jpV0 _ => true
  | .seImm _ _ | .sneImm _ _ | .ldImm _ _ | .addImm _ _ | .rnd _ _ => true
  | .seReg _ _ | .sneReg _ _ | .ldReg _ _ | .orReg _ _ | .andReg _ _ | .xorReg _ _ => true
  | .addReg _ _ | .subReg _ _ | .shr _ _ | .subnReg _ _ | .shl _ _ => true
  | .drw _ _ _ => true
  | .skp _ | .sknp _ | .ldVxDt _ | .ldVxK _ | .ldDtVx _ | .ldStVx _ => true
  | .addI _ | .ldF _ | .ldB _ | .storeRegs _ | .loadRegs _ => true

/-- The font buffer the host must hand to `write_font`: exactly 80 bytes (R262, R264). -/
def fontWellFormed (bytes : List Byte) : Bool :=
  bytes.length == Config.fontBytes

/-- The program buffer `load_program` takes: at most 2048 bytes (R265). -/
def programWellFormed (bytes : List Byte) : Bool :=
  decide (bytes.length ≤ Config.programMax)

end Sys2Proof
end

