-- ==== Sys2Proof/Decode.lean ====
section
/-! DEFINITION. The opcode decoder (30_encoding.md R70), the dispatch table (R74, R87) and the encoder that the same
table gives. Decoding is total: every word and every list of bytes gives an instruction or a rejection by name. -/

namespace Sys2Proof

/-- `x = opcode[11:8]` (R70). -/
def fieldX (w : Word) : Reg := (w.extractLsb' 8 4).toFin

/-- `y = opcode[7:4]` (R70). -/
def fieldY (w : Word) : Reg := (w.extractLsb' 4 4).toFin

/-- `n = opcode[3:0]` (R70). -/
def fieldN (w : Word) : BitVec 4 := w.extractLsb' 0 4

/-- `nn = opcode[7:0]` (R70). -/
def fieldNN (w : Word) : Byte := w.extractLsb' 0 8

/-- `nnn = opcode[11:0]` (R70). -/
def fieldNNN (w : Word) : BitVec 12 := w.extractLsb' 0 12

/-- One row of the instruction table: it recognises `w` when `w &&& mask = value` (R74). -/
structure OpcodeRow where
  mask  : Word
  value : Word
  build : Word → Instr

/-- Does the row recognise the word? (R74) -/
def OpcodeRow.recognises (r : OpcodeRow) (w : Word) : Bool := w &&& r.mask == r.value

/-- Rows 1 to 18 of R87. -/
def opcodeTableLow : List OpcodeRow := [
  ⟨0xFFFF, 0x00E0, fun _ => .cls⟩,
  ⟨0xFFFF, 0x00EE, fun _ => .ret⟩,
  ⟨0xF000, 0x1000, fun w => .jp (fieldNNN w)⟩,
  ⟨0xF000, 0x2000, fun w => .call (fieldNNN w)⟩,
  ⟨0xF000, 0x3000, fun w => .seImm (fieldX w) (fieldNN w)⟩,
  ⟨0xF000, 0x4000, fun w => .sneImm (fieldX w) (fieldNN w)⟩,
  ⟨0xF00F, 0x5000, fun w => .seReg (fieldX w) (fieldY w)⟩,
  ⟨0xF000, 0x6000, fun w => .ldImm (fieldX w) (fieldNN w)⟩,
  ⟨0xF000, 0x7000, fun w => .addImm (fieldX w) (fieldNN w)⟩,
  ⟨0xF00F, 0x8000, fun w => .ldReg (fieldX w) (fieldY w)⟩,
  ⟨0xF00F, 0x8001, fun w => .orReg (fieldX w) (fieldY w)⟩,
  ⟨0xF00F, 0x8002, fun w => .andReg (fieldX w) (fieldY w)⟩,
  ⟨0xF00F, 0x8003, fun w => .xorReg (fieldX w) (fieldY w)⟩,
  ⟨0xF00F, 0x8004, fun w => .addReg (fieldX w) (fieldY w)⟩,
  ⟨0xF00F, 0x8005, fun w => .subReg (fieldX w) (fieldY w)⟩,
  ⟨0xF00F, 0x8006, fun w => .shr (fieldX w) (fieldY w)⟩,
  ⟨0xF00F, 0x8007, fun w => .subnReg (fieldX w) (fieldY w)⟩,
  ⟨0xF00F, 0x800E, fun w => .shl (fieldX w) (fieldY w)⟩]

/-- Rows 19 to 34 of R87. -/
def opcodeTableHigh : List OpcodeRow := [
  ⟨0xF00F, 0x9000, fun w => .sneReg (fieldX w) (fieldY w)⟩,
  ⟨0xF000, 0xA000, fun w => .ldI (fieldNNN w)⟩,
  ⟨0xF000, 0xB000, fun w => .jpV0 (fieldNNN w)⟩,
  ⟨0xF000, 0xC000, fun w => .rnd (fieldX w) (fieldNN w)⟩,
  ⟨0xF000, 0xD000, fun w => .drw (fieldX w) (fieldY w) (fieldN w)⟩,
  ⟨0xF0FF, 0xE09E, fun w => .skp (fieldX w)⟩,
  ⟨0xF0FF, 0xE0A1, fun w => .sknp (fieldX w)⟩,
  ⟨0xF0FF, 0xF007, fun w => .ldVxDt (fieldX w)⟩,
  ⟨0xF0FF, 0xF00A, fun w => .ldVxK (fieldX w)⟩,
  ⟨0xF0FF, 0xF015, fun w => .ldDtVx (fieldX w)⟩,
  ⟨0xF0FF, 0xF018, fun w => .ldStVx (fieldX w)⟩,
  ⟨0xF0FF, 0xF01E, fun w => .addI (fieldX w)⟩,
  ⟨0xF0FF, 0xF029, fun w => .ldF (fieldX w)⟩,
  ⟨0xF0FF, 0xF033, fun w => .ldB (fieldX w)⟩,
  ⟨0xF0FF, 0xF055, fun w => .storeRegs (fieldX w)⟩,
  ⟨0xF0FF, 0xF065, fun w => .loadRegs (fieldX w)⟩]

/-- The instruction table, in the order of R87. -/
def opcodeTable : List OpcodeRow := opcodeTableLow ++ opcodeTableHigh

/-- Why a word or a list of bytes is no instruction. -/
inductive Reject where
  /-- The word matches no row of R87 (R78); the step reports it to the host with the raw word. -/
  | unsupportedOpcode (w : Word)
  /-- Fewer than two bytes are left; the machine's own fetch never asks this, since it reads both bytes or faults. -/
  | truncated
  deriving DecidableEq, Repr

/-- Dispatch: the first row that recognises the word builds the instruction (R74); no row, no instruction (R78). -/
def decodeWord (w : Word) : Except Reject Instr :=
  match opcodeTable.find? (·.recognises w) with
  | some r => .ok (r.build w)
  | none => .error (.unsupportedOpcode w)

/-- The opcode two bytes make, `(hi << 8) | lo`: the byte at the lower address is bits 15:8 (R71; 20_memory.md R56,
decision D1). -/
def wordOfBytes (hi lo : Byte) : Word := hi.setWidth 16 <<< 8 ||| lo.setWidth 16

/-- The byte of an opcode that stands at the lower address. -/
def highByte (w : Word) : Byte := w.extractLsb' 8 8

/-- The byte of an opcode that stands at the higher address. -/
def lowByte (w : Word) : Byte := w.extractLsb' 0 8

/-- Decode the instruction at the head of a list of bytes and give back the bytes after it. -/
def decode : List Byte → Except Reject (Instr × List Byte)
  | hi :: lo :: rest =>
    match decodeWord (wordOfBytes hi lo) with
    | .ok i => .ok (i, rest)
    | .error e => .error e
  | _ => .error .truncated

/-- A register number as the 4-bit field that holds it. -/
def regBits (r : Reg) : BitVec 4 := BitVec.ofNat 4 r.val

/-- A nibble put at bit `k` of a word (R86). -/
def nibbleAt (k : Nat) (b : BitVec 4) : Word := b.setWidth 16 <<< k

/-- The format NNN of R76: `(op << 12) | nnn`. -/
def formNNN (op : BitVec 4) (nnn : BitVec 12) : Word := nibbleAt 12 op ||| nnn.setWidth 16

/-- The format XNN of R76: `(op << 12) | (x << 8) | nn`. -/
def formXNN (op : BitVec 4) (x : Reg) (nn : Byte) : Word :=
  nibbleAt 12 op ||| nibbleAt 8 (regBits x) ||| nn.setWidth 16

/-- The formats XY (`sub` fixed) and XYN (`sub` the row count) of R76: `(op << 12) | (x << 8) | (y << 4) | sub`. -/
def formXYN (op : BitVec 4) (x y : Reg) (sub : BitVec 4) : Word :=
  nibbleAt 12 op ||| nibbleAt 8 (regBits x) ||| nibbleAt 4 (regBits y) ||| nibbleAt 0 sub

/-- The opcode of an instruction, from the encoding column of R87. -/
def encode : Instr → Word
  | .cls => 0x00E0
  | .ret => 0x00EE
  | .jp nnn => formNNN 0x1 nnn
  | .call nnn => formNNN 0x2 nnn
  | .seImm x nn => formXNN 0x3 x nn
  | .sneImm x nn => formXNN 0x4 x nn
  | .seReg x y => formXYN 0x5 x y 0x0
  | .ldImm x nn => formXNN 0x6 x nn
  | .addImm x nn => formXNN 0x7 x nn
  | .ldReg x y => formXYN 0x8 x y 0x0
  | .orReg x y => formXYN 0x8 x y 0x1
  | .andReg x y => formXYN 0x8 x y 0x2
  | .xorReg x y => formXYN 0x8 x y 0x3
  | .addReg x y => formXYN 0x8 x y 0x4
  | .subReg x y => formXYN 0x8 x y 0x5
  | .shr x y => formXYN 0x8 x y 0x6
  | .subnReg x y => formXYN 0x8 x y 0x7
  | .shl x y => formXYN 0x8 x y 0xE
  | .sneReg x y => formXYN 0x9 x y 0x0
  | .ldI nnn => formNNN 0xA nnn
  | .jpV0 nnn => formNNN 0xB nnn
  | .rnd x nn => formXNN 0xC x nn
  | .drw x y n => formXYN 0xD x y n
  | .skp x => formXNN 0xE x 0x9E
  | .sknp x => formXNN 0xE x 0xA1
  | .ldVxDt x => formXNN 0xF x 0x07
  | .ldVxK x => formXNN 0xF x 0x0A
  | .ldDtVx x => formXNN 0xF x 0x15
  | .ldStVx x => formXNN 0xF x 0x18
  | .addI x => formXNN 0xF x 0x1E
  | .ldF x => formXNN 0xF x 0x29
  | .ldB x => formXNN 0xF x 0x33
  | .storeRegs x => formXNN 0xF x 0x55
  | .loadRegs x => formXNN 0xF x 0x65

/-- The bytes of an instruction as memory holds them, the lowest address first. -/
def encodeBytes (i : Instr) : List Byte := [highByte (encode i), lowByte (encode i)]

/-- The word that a table row's bits are: bits from `nbits` up are zero, and an instruction has one 16-bit word (R76). -/
def tableWord (nbits w : Nat) : Word := BitVec.ofNat 16 (w % 2 ^ nbits)

/-- The instruction the decoder reads from the word `w`, numbered as spec/opcode_table.json numbers its bits. -/
def decodeTableWord (nbits w : Nat) : Option Instr :=
  match decode [highByte (tableWord nbits w), lowByte (tableWord nbits w)] with
  | .ok (i, _) => some i
  | .error _ => none

end Sys2Proof
end

