-- ==== Sys2Proof/Machine/State.lean ====
section
/-! DEFINITION. The state of the CHIP-8 CORE (10_state.md), why a step stops, and the state after reset
(70_reset_and_hazards.md R260). -/

namespace Sys2Proof.Machine

/-- Memory: the bytes that differ from what an unlisted address reads as, by rising address (R50; log entry 7). -/
abbrev Memory := List Host.Cell

/-- `FB[row][column]`: 32 rows of 64 pixels (10_state.md R29). -/
abbrev Display := Vector (Vector Bool 64) 32

/-- The inputs of one step transaction (60_exceptions.md R240). -/
structure StepInput where
  /-- `key_input[15:0]`: bit k is key k. -/
  keyInput : BitVec 16
  /-- `elapsed`, in whole nanoseconds. -/
  elapsed  : Nat
  /-- `rnd[7:0]`, the random byte. -/
  rnd      : Byte
  deriving DecidableEq, Repr

/-- The unrecoverable outcomes `Fatal(kind, info)` of a step (60_exceptions.md R222 to R225). The machine stops. -/
inductive Fault where
  /-- A byte write past 0xFFF at the address given: Fx33 and Fx55 (R52, R222). Safe: the machine stops as the spec says. -/
  | memWriteOutOfBounds (addr : Nat)
  /-- A byte read past 0xFFF at the address given: fetch, Dxyn and Fx65 (R53, R223, decision D3). Safe: where a chip
  went on with some value, the model stops. -/
  | memReadOutOfBounds (addr : Nat)
  /-- 00EE with an empty stack, at the address of the 00EE (R102, R224, decision D18). Safe: the machine stops as the
  spec says. -/
  | stackUnderflow (addr : Word)
  deriving DecidableEq, Repr

/-- Calls that the model gives no meaning. -/
inductive Refusal where
  /-- An instruction that has no meaning yet; raised by exec's arm alone (none is left). Safe. -/
  | notModelled (mnemonic : String)
  /-- A step called after a fatal outcome: the host has no such move (R225, R240, U12); raised by the step. Safe. -/
  | coreHalted
  /-- A font buffer of the length given, which is not 80 bytes (R264, U11); raised by `write_font`. Safe. -/
  | fontBufferLength (bytes : Nat)
  deriving DecidableEq, Repr

/-- What the last step reported on `outcome[2:0]` and `info[15:0]` (60_exceptions.md R226). -/
inductive Report where
  /-- `Ok` -/
  | ok
  /-- `UnsupportedOpcode(opcode)` -/
  | unsupportedOpcode (opcode : Word)
  /-- `Fatal(kind, info)` -/
  | fatal (f : Fault)
  deriving DecidableEq, Repr

/-- Everything the spec gives the machine (10_state.md section 1), the report of the last step (R226), and the model's
own fields for the inputs of a step (log entries 1 and 2). -/
structure State where
  /-- `V[0..15]` (R20, R21) -/
  v         : Vector Byte 16
  /-- `PC` (R23) -/
  pc        : Word
  /-- `I` (R24) -/
  i         : Word
  /-- `STACK`, the top first (R25; log entry 9) -/
  stack     : List Word
  /-- `DT` (R26) -/
  dt        : Byte
  /-- `ST` (R26) -/
  st        : Byte
  /-- `DT_ACC` in nanoseconds (R27) -/
  dtAcc     : Nat
  /-- `ST_ACC` in nanoseconds (R27) -/
  stAcc     : Nat
  /-- `KEY[0..15]`: bit k is key k (R28) -/
  key       : BitVec 16
  /-- `FB` (R29) -/
  fb        : Display
  /-- `MEM` (R30, R50) -/
  mem       : Memory
  /-- `HALTED` (R34) -/
  halted    : Bool
  /-- `outcome` and `info` of the last step (R226, R240) -/
  report    : Report
  /-- the model's own: the random byte of the current step, latched by the step (R236; log entry 2) -/
  rnd       : Byte
  /-- the model's own: the step transactions the host has lined up, oldest first (R240; log entry 1) -/
  pending   : List StepInput
  /-- the model's own: how many step transactions were taken; it indexes the free inputs (log entry 1) -/
  stepCount : Nat
  deriving DecidableEq, Repr

/-- The machine right after reset (R260). -/
def State.reset : State where
  v         := Vector.replicate 16 0x00
  pc        := Config.resetPc
  i         := 0x0000
  stack     := []
  dt        := 0x00
  st        := 0x00
  dtAcc     := 0
  stAcc     := 0
  key       := 0x0000
  fb        := Vector.replicate 32 (Vector.replicate 64 false)
  mem       := []
  halted    := false
  report    := .ok
  rnd       := 0x00
  pending   := []
  stepCount := 0

end Sys2Proof.Machine
end

