-- ==== Sys2Proof/Machine/Ops.lean ====
section
/-! DEFINITION. The named operations over registers, memory, the stack, the timers and the framebuffer; the fetch; and
how a step's outcome is recorded. Every read and write of a piece of state goes through one of them. -/

namespace Sys2Proof.Machine

/-! ### Setters, one per register -/

def State.setPc (s : State) (a : Word) : State := { s with pc := a }
def State.setI (s : State) (a : Word) : State := { s with i := a }
def State.setStack (s : State) (k : List Word) : State := { s with stack := k }
def State.setDt (s : State) (b : Byte) : State := { s with dt := b }
def State.setSt (s : State) (b : Byte) : State := { s with st := b }
def State.setFb (s : State) (d : Display) : State := { s with fb := d }
def State.setMem (s : State) (m : Memory) : State := { s with mem := m }
def State.setReport (s : State) (r : Report) : State := { s with report := r }

/-! ### General registers (10_state.md R20, R21) -/

/-- `V[r]` -/
def State.reg (s : State) (r : Reg) : Byte := s.v[r]

/-- `V[r] <- b` -/
def State.setReg (s : State) (r : Reg) (b : Byte) : State := { s with v := s.v.set r b }

/-- `V[x] <- result`, then `VF <- flag`: the flag is written last and survives when x is F (R21, decision D11). -/
def State.setRegAndFlag (s : State) (x : Reg) (result : Byte) (flag : Bool) : State :=
  (s.setReg x result).setReg VF (if flag then 1 else 0)

/-- `V[k] <- b0, V[k+1] <- b1, …` -/
def State.setRegsFrom : Nat → List Byte → State → State
  | _, [], s => s
  | k, b :: bs, s => State.setRegsFrom (k + 1) bs (s.setReg (Fin.ofNat 16 k) b)

/-! ### Memory (20_memory.md) -/

/-- The byte an address holds in a memory; an unlisted address holds the reset byte (R60, R260). -/
def Memory.byteAt (a : Nat) : Memory → Byte
  | [] => Config.resetByte
  | c :: rest => if c.1 = a then c.2 else Memory.byteAt a rest

/-- The memory with nothing listed at an address. -/
def Memory.erase (a : Nat) (m : Memory) : Memory := m.filter fun c => c.1 != a

/-- List a byte at an address in front of the first higher one. -/
def Memory.insert (a : Nat) (b : Byte) : Memory → Memory
  | [] => [(a, b)]
  | c :: rest => if c.1 < a then c :: Memory.insert a b rest else (a, b) :: c :: rest

/-- Write a byte, keeping the canonical form: the reset byte is not listed. -/
def Memory.put (a : Nat) (b : Byte) (m : Memory) : Memory :=
  if b = Config.resetByte then Memory.erase a m else Memory.insert a b (Memory.erase a m)

/-- Write bytes at rising addresses. -/
def Memory.putRun : Nat → List Byte → Memory → Memory
  | _, [], m => m
  | a, b :: bs, m => Memory.putRun (a + 1) bs (Memory.put a b m)

/-- The canonical form from an address on: rising addresses inside memory, no reset byte listed. -/
def Memory.wfFrom : Nat → Memory → Bool
  | _, [] => true
  | lo, c :: rest =>
    decide (lo ≤ c.1) && decide (c.1 < Config.memSize) && (c.2 != Config.resetByte) && Memory.wfFrom (c.1 + 1) rest

/-- The canonical form of a memory (log entry 7). -/
def Memory.wf (m : Memory) : Bool := Memory.wfFrom 0 m

/-- The byte an address of the machine's memory holds. -/
def State.byteAt (s : State) (a : Nat) : Byte := Memory.byteAt a s.mem

/-- `MemRead(a, 1)` (00_scope.md R10, R53): the address is a mathematical integer and never wraps (R54). -/
def State.memRead (s : State) (a : Nat) : Except Fault Byte :=
  if a < Config.memSize then .ok (s.byteAt a) else .error (.memReadOutOfBounds a)

/-- `MemWrite(a, 1, b)` (00_scope.md R10, R52). -/
def State.memWrite (s : State) (a : Nat) (b : Byte) : Except Fault State :=
  if a < Config.memSize then .ok (s.setMem (Memory.put a b s.mem)) else .error (.memWriteOutOfBounds a)

/-- Read bytes one by one at rising addresses; the first address out of range stops it (R57, R228). -/
def State.readRun (s : State) : Nat → Nat → Except Fault (List Byte)
  | _, 0 => .ok []
  | a, n + 1 =>
    match s.memRead a with
    | .error f => .error f
    | .ok b =>
      match s.readRun (a + 1) n with
      | .error f => .error f
      | .ok bs => .ok (b :: bs)

/-- Write bytes one by one at rising addresses; the first address out of range stops it (R57, R228). -/
def State.writeRun : Nat → List Byte → State → Except Fault State
  | _, [], s => .ok s
  | a, b :: bs, s =>
    match s.memWrite a b with
    | .error f => .error f
    | .ok t => State.writeRun (a + 1) bs t

/-- The outcome of an instruction that ends with a memory access. -/
def finish : Except Fault State → Host.Outcome State Fault Refusal
  | .ok t => .next t
  | .error f => .fault f

/-! ### Program counter and stack (10_state.md R23, R25) -/

/-- `skip`, when a condition holds: `PC <- wrap16(PC + 2)` (00_scope.md R11). -/
def State.skipIf (c : Bool) (s : State) : State := if c then s.setPc (s.pc + 2) else s

/-- `push(STACK, a)` -/
def State.push (s : State) (a : Word) : State := s.setStack (a :: s.stack)

/-- `pop(STACK)`: the top entry and the machine without it; nothing when the stack is empty. -/
def State.pop (s : State) : Option (Word × State) :=
  match s.stack with
  | [] => none
  | a :: rest => some (a, s.setStack rest)

/-- The address of the running instruction: PC is already two past it (30_encoding.md R73). -/
def State.instrAddr (s : State) : Word := s.pc - 2

/-! ### The framebuffer and the compositor (47_display.md section 1) -/

/-- `FB[r][c]`; outside the grid there is no pixel and the answer is false. -/
def Display.pixel (d : Display) (r c : Nat) : Bool :=
  if h : r < 32 ∧ c < 64 then (d[r]'h.1)[c]'h.2 else false

/-- `FB[r][c] <- not FB[r][c]` -/
def Display.flip (d : Display) (r c : Nat) : Display :=
  if h : r < 32 ∧ c < 64 then d.set r ((d[r]'h.1).set c (!(d[r]'h.1)[c]'h.2) h.2) h.1 else d

/-- `clear()` (R204). -/
def Display.clear : Display := Vector.replicate 32 (Vector.replicate 64 false)

/-- How many columns of a sprite row at column `x0` lie on the display: `min(x0 + 8, 64) - x0` (R203). -/
def spriteCols (x0 : Nat) : Nat := min (x0 + 8) Config.displayW - x0

/-- One sprite row: column j of it, bit `7 - j` of the byte, flips the pixel when the bit is 1 (R203, decision D7). -/
def Display.xorRow (r x0 : Nat) (b : Byte) (d : Display) : Display :=
  (List.range (spriteCols x0)).foldl (fun d j => if b.getLsbD (7 - j) then Display.flip d r (x0 + j) else d) d

/-- `apply_sprite`: the rows from `r` down; drawing stops at the bottom edge (R203). -/
def Display.applySprite (x0 : Nat) : Nat → List Byte → Display → Display
  | _, [], d => d
  | r, b :: bs, d =>
    if r ≥ Config.displayH then d else Display.applySprite x0 (r + 1) bs (Display.xorRow r x0 b d)

/-- A pixel of the machine's framebuffer. -/
def State.pixel (s : State) (r c : Nat) : Bool := Display.pixel s.fb r c

/-! ### The timer countdown unit (60_exceptions.md R232) -/

/-- Whole periods complete once `elapsed` is added to an accumulator. -/
def periods (acc elapsed : Nat) : Nat := (acc + elapsed) / Config.timerPeriod

/-- What is left in the accumulator: always below one period. -/
def accAfter (acc elapsed : Nat) : Nat := (acc + elapsed) % Config.timerPeriod

/-- A timer that has lost `k` periods: toward zero, never below. -/
def decay (t : Byte) (k : Nat) : Byte := if t.toNat > k then BitVec.ofNat 8 (t.toNat - k) else 0

/-- `timer_tick(elapsed)`: both timers. -/
def State.tick (s : State) (elapsed : Nat) : State :=
  { s with
    dt := decay s.dt (periods s.dtAcc elapsed)
    dtAcc := accAfter s.dtAcc elapsed
    st := decay s.st (periods s.stAcc elapsed)
    stAcc := accAfter s.stAcc elapsed }

/-! ### The step cycle's parts (30_encoding.md section 3) -/

/-- `KEY <- key_input`, before anything else in the step (R81, R28), and the random byte of the step. -/
def State.latch (s : State) (inp : StepInput) : State := { s with key := inp.keyInput, rnd := inp.rnd }

/-- Fetch: two byte reads, the high byte first (R71). -/
def State.fetch (s : State) : Except Fault Word :=
  match s.memRead s.pc.toNat with
  | .error f => .error f
  | .ok hi =>
    match s.memRead (s.pc.toNat + 1) with
    | .error f => .error f
    | .ok lo => .ok (wordOfBytes hi lo)

/-- After a successful fetch: `PC <- wrap16(a + 2)` (R73); the step's report is `Ok` unless something is raised. -/
def State.advance (s : State) : State := { s with pc := s.pc + 2, report := .ok }

/-- The inputs of the next step: the oldest the host has lined up, else free values (log entry 1). -/
def State.nextInput (s : State) : StepInput :=
  match s.pending with
  | inp :: _ => inp
  | [] => ⟨Config.freeKeys s.stepCount, Config.freeElapsed s.stepCount, Config.freeRnd s.stepCount⟩

/-- The machine once the inputs of a step are taken. -/
def State.takeInput (s : State) : State := { s with pending := s.pending.tail, stepCount := s.stepCount + 1 }

/-! ### Outcomes (60_exceptions.md section 1) -/

/-- TAKING AN EXCEPTION: `UnsupportedOpcode(opcode)` is the one a step goes on from. It records the raw opcode; nothing is
saved, no control transfer takes place, and PC is already past the word (R78, R221, R229). There is no return (R230). -/
def State.takeUnsupported (s : State) (opcode : Word) : State := s.setReport (.unsupportedOpcode opcode)

/-- A state after `Fatal`: HALTED is set and the outcome reported; every other field is that of an arbitrary `wreck`,
since the rules fix nothing else (R225; log entry 4). -/
def State.afterFatal (f : Fault) (wreck : State) : State := { wreck with halted := true, report := .fatal f }

/-- The address a fatal outcome records (R222, R223, R224). -/
def Fault.addr : Fault → Nat
  | .memWriteOutOfBounds a => a
  | .memReadOutOfBounds a => a
  | .stackUnderflow a => a.toNat

/-- `outcome[2:0]` (R226, decision D18). -/
def Report.code : Report → BitVec 3
  | .ok => 0
  | .unsupportedOpcode _ => 1
  | .fatal (.memWriteOutOfBounds _) => 2
  | .fatal (.memReadOutOfBounds _) => 3
  | .fatal (.stackUnderflow _) => 4

/-- `info[15:0]` (R226). -/
def Report.info : Report → BitVec 16
  | .ok => 0
  | .unsupportedOpcode w => w
  | .fatal f => BitVec.ofNat 16 f.addr

end Sys2Proof.Machine
end

