-- ==== Sys2Proof/Machine/Flags.lean ====
section
/-! DEFINITION. The results and flags of the flag writers (10_state.md R31): exact integers first, narrowed at the end. -/

namespace Sys2Proof.Machine

/-- `wrap8(v)` (00_scope.md R8). -/
def wrap8 (v : Nat) : Byte := BitVec.ofNat 8 v

/-- 8xy4: the wrapped sum (R140). -/
def addResult (a b : Byte) : Byte := wrap8 (a.toNat + b.toNat)

/-- 8xy4: carry, the exact sum is above 255 (R140). -/
def carryFlag (a b : Byte) : Bool := decide (a.toNat + b.toNat > 255)

/-- 8xy5 and, with the operands swapped, 8xy7: the wrapped difference (R141, R142). -/
def subResult (a b : Byte) : Byte := a - b

/-- 8xy5 and, swapped, 8xy7: NOT borrow, 1 unless the subtrahend is the greater (R141, R142). -/
def notBorrowFlag (a b : Byte) : Bool := !decide (b.toNat > a.toNat)

/-- 8xy6: the value shifted right by one (R143). -/
def shrResult (a : Byte) : Byte := a >>> 1

/-- 8xy6: the bit shifted out (R143). -/
def shrFlag (a : Byte) : Bool := a.getLsbD 0

/-- 8xyE: the value shifted left by one, cut to 8 bits (R144). -/
def shlResult (a : Byte) : Byte := a <<< 1

/-- 8xyE: the bit shifted out (R144). -/
def shlFlag (a : Byte) : Bool := a.getLsbD 7

/-- Fx1E: the new, wrapped index is above 0xFFF (44_index_random.md R161). -/
def rangeFlag (newI : Word) : Bool := decide (newI.toNat > 0xFFF)

end Sys2Proof.Machine
end

