-- ==== Sys2Proof/Machine/Operands.lean ====
section
/-! DEFINITION. The operand forms (30_encoding.md R77) and the values the instruction rules make of their operands. -/

namespace Sys2Proof.Machine

/-- `zext_16(nnn)` (00_scope.md R8). -/
def zext12 (nnn : BitVec 12) : Word := nnn.setWidth 16

/-- An unsigned byte as a 16-bit value. -/
def zext8 (b : Byte) : Word := b.setWidth 16

/-- The key the low nibble of a register selects (45_keys_timers.md). -/
def keyIndex (b : Byte) : Nat := (b &&& 0x0F).toNat

/-- `KEY[V[x] & 0xF]` (R170, R171, R172). -/
def State.keyPressed (s : State) (x : Reg) : Bool := s.key.getLsbD (keyIndex (s.reg x))

/-- `V[0], …, V[x]`, the registers of a block store (46_font_bcd_block.md R192). -/
def State.regsUpTo (s : State) (x : Reg) : List Byte := s.v.toList.take (x.val + 1)

/-- The three decimal digits of a byte: hundreds, tens, ones (R191). -/
def bcdDigits (b : Byte) : List Byte :=
  [BitVec.ofNat 8 (b.toNat / 100), BitVec.ofNat 8 (b.toNat / 10 % 10), BitVec.ofNat 8 (b.toNat % 10)]

/-- The address of the glyph for a register value: `0x50 + 5 * v`, the whole byte used (R190). -/
def glyphAddr (b : Byte) : Word := BitVec.ofNat 16 (Config.fontBase + Config.fontGlyphBytes * b.toNat)

/-- The anchor column: only the anchor wraps (R201). -/
def anchorCol (b : Byte) : Nat := b.toNat % Config.displayW

/-- The anchor row (R201). -/
def anchorRow (b : Byte) : Nat := b.toNat % Config.displayH

end Sys2Proof.Machine
end

