-- ==== Sys2Proof/Machine/Arith.lean ====
section
/-! DEFINITION. Flagged arithmetic and shifts (43_flagged_arith_shift.md): the operands are read, V[x] is written, VF is
written last (decision D11). -/

namespace Sys2Proof.Machine

/-- `ADD Vx, Vy` (R140). -/
def execAddReg (x y : Reg) (s : State) : Host.Outcome State Fault Refusal :=
  .next (s.setRegAndFlag x (addResult (s.reg x) (s.reg y)) (carryFlag (s.reg x) (s.reg y)))

/-- `SUB Vx, Vy` (R141). -/
def execSubReg (x y : Reg) (s : State) : Host.Outcome State Fault Refusal :=
  .next (s.setRegAndFlag x (subResult (s.reg x) (s.reg y)) (notBorrowFlag (s.reg x) (s.reg y)))

/-- `SHR Vx {, Vy}` (R143): Vy is not consulted. -/
def execShr (x _y : Reg) (s : State) : Host.Outcome State Fault Refusal :=
  .next (s.setRegAndFlag x (shrResult (s.reg x)) (shrFlag (s.reg x)))

/-- `SUBN Vx, Vy` (R142). -/
def execSubnReg (x y : Reg) (s : State) : Host.Outcome State Fault Refusal :=
  .next (s.setRegAndFlag x (subResult (s.reg y) (s.reg x)) (notBorrowFlag (s.reg y) (s.reg x)))

/-- `SHL Vx {, Vy}` (R144): Vy is not consulted. -/
def execShl (x _y : Reg) (s : State) : Host.Outcome State Fault Refusal :=
  .next (s.setRegAndFlag x (shlResult (s.reg x)) (shlFlag (s.reg x)))

end Sys2Proof.Machine
end

