-- ==== Sys2Proof/Machine/Block.lean ====
section
/-! DEFINITION. Font address, BCD and block transfer (46_font_bcd_block.md). I is the base of every access and is left
unchanged by all but Fx29 (decision D10). -/

namespace Sys2Proof.Machine

/-- `LD F, Vx` (R190): memory is not read. -/
def execLdF (x : Reg) (s : State) : Host.Outcome State Fault Refusal :=
  .next (s.setI (glyphAddr (s.reg x)))

/-- `LD B, Vx` (R191). -/
def execLdB (x : Reg) (s : State) : Host.Outcome State Fault Refusal :=
  finish (s.writeRun s.i.toNat (bcdDigits (s.reg x)))

/-- `LD [I], Vx` (R192). -/
def execStoreRegs (x : Reg) (s : State) : Host.Outcome State Fault Refusal :=
  finish (s.writeRun s.i.toNat (s.regsUpTo x))

/-- `LD Vx, [I]` (R193): all x + 1 bytes are there before a register is written, which no run can tell apart. -/
def execLoadRegs (x : Reg) (s : State) : Host.Outcome State Fault Refusal :=
  match s.readRun s.i.toNat (x.val + 1) with
  | .error f => .fault f
  | .ok bs => .next (s.setRegsFrom 0 bs)

end Sys2Proof.Machine
end

