-- ==== Sys2Proof/Machine/ControlFlow.lean ====
section
/-! DEFINITION. Control flow (41_control_flow.md). PC is already the address of the next instruction (R13, R73). -/

namespace Sys2Proof.Machine

/-- `RET` (R102): an empty stack is fatal and records the address of the 00EE (R224). -/
def execRet (s : State) : Host.Outcome State Fault Refusal :=
  match s.pop with
  | none => .fault (.stackUnderflow s.instrAddr)
  | some (a, t) => .next (t.setPc a)

/-- `JP nnn` (R100). -/
def execJp (nnn : BitVec 12) (s : State) : Host.Outcome State Fault Refusal :=
  .next (s.setPc (zext12 nnn))

/-- `CALL nnn` (R101): the return address pushed is the advanced PC. -/
def execCall (nnn : BitVec 12) (s : State) : Host.Outcome State Fault Refusal :=
  .next ((s.push s.pc).setPc (zext12 nnn))

/-- `JP V0, nnn` (R107, decision D2): the advanced PC plus nnn plus V0, modulo 2^16. -/
def execJpV0 (nnn : BitVec 12) (s : State) : Host.Outcome State Fault Refusal :=
  .next (s.setPc (s.pc + zext12 nnn + zext8 (s.reg 0)))

/-- `SE Vx, nn` (R103). -/
def execSeImm (x : Reg) (nn : Byte) (s : State) : Host.Outcome State Fault Refusal :=
  .next (s.skipIf (s.reg x == nn))

/-- `SNE Vx, nn` (R104). -/
def execSneImm (x : Reg) (nn : Byte) (s : State) : Host.Outcome State Fault Refusal :=
  .next (s.skipIf (s.reg x != nn))

/-- `SE Vx, Vy` (R105). -/
def execSeReg (x y : Reg) (s : State) : Host.Outcome State Fault Refusal :=
  .next (s.skipIf (s.reg x == s.reg y))

/-- `SNE Vx, Vy` (R106). -/
def execSneReg (x y : Reg) (s : State) : Host.Outcome State Fault Refusal :=
  .next (s.skipIf (s.reg x != s.reg y))

end Sys2Proof.Machine
end

