-- ==== Sys2Proof/Machine/Display.lean ====
section
/-! DEFINITION. Display (47_display.md section 2): no register is written, and no flag (R202). -/

namespace Sys2Proof.Machine

/-- `CLS` (R200). -/
def execCls (s : State) : Host.Outcome State Fault Refusal :=
  .next (s.setFb Display.clear)

/-- `DRW Vx, Vy, n` (R201): all n bytes are read before drawing, clipped rows among them (decision D8). -/
def execDrw (x y : Reg) (n : BitVec 4) (s : State) : Host.Outcome State Fault Refusal :=
  match s.readRun s.i.toNat n.toNat with
  | .error f => .fault f
  | .ok bs => .next (s.setFb (Display.applySprite (anchorCol (s.reg x)) (anchorRow (s.reg y)) bs s.fb))

end Sys2Proof.Machine
end

