-- ==== Sys2Proof/Machine/Index.lean ====
section
/-! DEFINITION. Index register and random (44_index_random.md). -/

namespace Sys2Proof.Machine

/-- `LD I, nnn` (R160). -/
def execLdI (nnn : BitVec 12) (s : State) : Host.Outcome State Fault Refusal :=
  .next (s.setI (zext12 nnn))

/-- The new index of `ADD I, Vx`, modulo 2^16 (R161). -/
def State.indexPlus (s : State) (x : Reg) : Word := s.i + zext8 (s.reg x)

/-- `ADD I, Vx` (R161): VF says whether the new index is above 0xFFF; the operand is read before VF is written. -/
def execAddI (x : Reg) (s : State) : Host.Outcome State Fault Refusal :=
  .next ((s.setI (s.indexPlus x)).setReg VF (if rangeFlag (s.indexPlus x) then 1 else 0))

/-- `RND Vx, nn` (R162): the step's random byte under the mask. -/
def execRnd (x : Reg) (nn : Byte) (s : State) : Host.Outcome State Fault Refusal :=
  .next (s.setReg x (s.rnd &&& nn))

end Sys2Proof.Machine
end

