-- ==== Sys2Proof/Machine/Cycle.lean ====
section
/-! DEFINITION. The step cycle (30_encoding.md R81): one `step` transaction with given inputs. -/

namespace Sys2Proof.Machine

/-- Latch the keys and tick both timers: what a step does before its fetch (R81). -/
def State.beginStep (s : State) (inp : StepInput) : State := (s.latch inp).tick inp.elapsed

/-- Dispatch the fetched opcode on a machine whose PC is already advanced: execute the row that recognises it, or report
`UnsupportedOpcode` (R74, R78). -/
def dispatch (w : Word) (s : State) : Host.Outcome State Fault Refusal :=
  match decodeWord w with
  | .ok i => exec i s
  | .error _ => .next (s.takeUnsupported w)

/-- Fetch, advance PC, dispatch (R71, R73, R74). A fetch out of range is fatal and PC is not advanced. -/
def fetchAndDispatch (s : State) : Host.Outcome State Fault Refusal :=
  match s.fetch with
  | .error f => .fault f
  | .ok w => dispatch w s.advance

/-- `step(key_input, elapsed, rnd)` (R81). A halted core takes no step (R225). -/
def stepWith (inp : StepInput) (s : State) : Host.Outcome State Fault Refusal :=
  if s.halted then .refused .coreHalted else fetchAndDispatch (s.beginStep inp)

/-- A word stored where a fetch at an address reads it, the high byte first (20_memory.md R56); past the top of memory
there is nowhere to put it and nothing is stored. -/
def State.placeWord (s : State) (a : Nat) (w : Word) : State :=
  if a + 1 < Config.memSize then s.setMem (Memory.putRun a [highByte w, lowByte w] s.mem) else s

end Sys2Proof.Machine
end

