-- ==== Sys2Proof/Machine/HostOps.lean ====
section
/-! DEFINITION. The host interface (60_exceptions.md R240): the five operations the host has on the CORE, one transaction
at a time, and what each one answers. -/

namespace Sys2Proof.Machine

/-- `write_font(font_bytes)` (70_reset_and_hazards.md R264): exactly 80 bytes at 0x050, nothing else; another length has no
meaning and is refused (decision D17). -/
def State.writeFont (bytes : List Byte) (s : State) : Except Refusal State :=
  if fontWellFormed bytes then .ok (s.setMem (Memory.putRun Config.fontBase bytes s.mem))
  else .error (.fontBufferLength bytes.length)

/-- `load_program(bytes)` (R265): `none` is `ProgramTooLarge`, with no state changed; else the bytes are at 0x200 and PC is
0x200. -/
def State.loadProgram (bytes : List Byte) (s : State) : Option State :=
  if programWellFormed bytes then
    some ((s.setMem (Memory.putRun Config.programBase bytes s.mem)).setPc (BitVec.ofNat 16 Config.programBase))
  else none

/-- Reset (R260): every piece of the machine's state takes its reset value. What the host has lined up, and the count of
transactions, are the host's and stay (log entry 1). -/
def State.hostReset (s : State) : State := { State.reset with pending := s.pending, stepCount := s.stepCount }

/-- What `get_state` shows: all of 10_state.md (R240), the nine pieces R241 lists and HALTED (R34), but for the accumulators.
DESIGN CHOICE (log entry 15): R241 says that it is not said whether DT_ACC and ST_ACC are shown; the view leaves them out. -/
structure HostView where
  v      : Vector Byte 16
  pc     : Word
  i      : Word
  stack  : List Word
  dt     : Byte
  st     : Byte
  key    : BitVec 16
  fb     : Display
  mem    : Memory
  halted : Bool
  deriving DecidableEq, Repr

/-- `get_state` (R240, R241). -/
def State.view (s : State) : HostView := ⟨s.v, s.pc, s.i, s.stack, s.dt, s.st, s.key, s.fb, s.mem, s.halted⟩

/-- The operations of the host (R240). -/
inductive HostOp where
  /-- `step(key_input, elapsed, rnd)` -/
  | step (inp : StepInput)
  /-- `get_state` -/
  | getState
  /-- `write_font(bytes)` -/
  | writeFont (bytes : List Byte)
  /-- `load_program(bytes)` -/
  | loadProgram (bytes : List Byte)
  /-- reset -/
  | reset
  deriving DecidableEq, Repr

/-- What an operation answers (R240). -/
inductive HostReply where
  /-- `step`: `outcome[2:0]` and `info[15:0]` (R226) -/
  | outcome (code : BitVec 3) (info : BitVec 16)
  /-- `get_state`: the state as it stands (R241) -/
  | view (v : HostView)
  /-- `write_font`, `load_program` and reset answer nothing -/
  | done
  /-- `load_program` of more than 2048 bytes (R265) -/
  | programTooLarge
  /-- a call the model gives no meaning (R240, R264) -/
  | refused (r : Refusal)
  deriving DecidableEq, Repr

/-- The answer to a step and the machine it leaves. After a fatal outcome the machine is halted and nothing else of it is
known: it is that of the arbitrary `wreck` (R225). -/
def settleStep (wreck s : State) : Host.Outcome State Fault Refusal → State × HostReply
  | .next t => (t, .outcome t.report.code t.report.info)
  | .fault f => (State.afterFatal f wreck, .outcome (Report.fatal f).code (Report.fatal f).info)
  | .refused r => (s, .refused r)

/-- One transaction of the host (R240): the machine after it and what the host is told. -/
def transact (wreck : State) (op : HostOp) (s : State) : State × HostReply :=
  match op with
  | .step inp => settleStep wreck s (stepWith inp s)
  | .getState => (s, .view s.view)
  | .writeFont bytes =>
    match s.writeFont bytes with
    | .ok t => (t, .done)
    | .error r => (s, .refused r)
  | .loadProgram bytes =>
    match s.loadProgram bytes with
    | some t => (t, .done)
    | none => (s, .programTooLarge)
  | .reset => (s.hostReset, .done)

end Sys2Proof.Machine
end

