-- ==== Sys2Proof/Machine/Step.lean ====
section
/-! DEFINITION. The step of the machine: one `step` transaction whose inputs the state lines up or leaves free. -/

namespace Sys2Proof.Machine

/-- One step (30_encoding.md R81): take the inputs of the transaction, then run it. -/
def step (s : State) : Host.Outcome State Fault Refusal := stepWith s.nextInput s.takeInput

/-- The machine with an instruction stored where the next step fetches (log entry 12). -/
def State.withFetchWord (s : State) (nbits w : Nat) : State := s.placeWord s.pc.toNat (tableWord nbits w)

end Sys2Proof.Machine
end

