-- ==== Sys2Proof/Safety.lean ====
section
/-! DEFINITION. The terms claims are stated in: the invariant of the machine, the frame of a change, which instructions
write what, and a run without a stop. -/

namespace Sys2Proof.Machine

/-- What every step keeps: the memory's canonical form inside 0x000..0xFFF, and each accumulator below one period
(10_state.md R27, R30). -/
abbrev State.Inv (s : State) : Prop :=
  Memory.wf s.mem = true ∧ s.dtAcc < Config.timerPeriod ∧ s.stAcc < Config.timerPeriod

/-- The pieces of state a claim can name, down to one register, one pixel and one byte of memory. -/
inductive Part where
  | reg (r : Reg)
  | pc
  | i
  | stack
  | dt
  | st
  | dtAcc
  | stAcc
  | key
  | pixel (r c : Nat)
  | byte (a : Nat)
  | halted
  | report
  | rnd
  | pending
  | stepCount
  deriving DecidableEq, Repr

/-- Two states hold the same in a piece of state; memory is compared through the read of one byte. -/
def Part.same (s t : State) : Part → Prop
  | .reg r => t.reg r = s.reg r
  | .pc => t.pc = s.pc
  | .i => t.i = s.i
  | .stack => t.stack = s.stack
  | .dt => t.dt = s.dt
  | .st => t.st = s.st
  | .dtAcc => t.dtAcc = s.dtAcc
  | .stAcc => t.stAcc = s.stAcc
  | .key => t.key = s.key
  | .pixel r c => t.pixel r c = s.pixel r c
  | .byte a => t.byteAt a = s.byteAt a
  | .halted => t.halted = s.halted
  | .report => t.report = s.report
  | .rnd => t.rnd = s.rnd
  | .pending => t.pending = s.pending
  | .stepCount => t.stepCount = s.stepCount

/-- From `s` to `t` nothing changes but what `may` allows. -/
def State.OnlyChanges (s t : State) (may : Part → Prop) : Prop := ∀ p, ¬ may p → Part.same s t p

/-- An address lies among the `n` bytes from `base` on. -/
def InRun (base n a : Nat) : Prop := base ≤ a ∧ a < base + n

end Sys2Proof.Machine

namespace Sys2Proof

/-- The instructions of 10_state.md R31: VF receives a flag on every execution. -/
def Instr.WritesFlag : Instr → Prop
  | .addReg _ _ | .subReg _ _ | .subnReg _ _ | .shr _ _ | .shl _ _ | .addI _ => True
  | _ => False

/-- The general registers an instruction names as its destination (10_state.md R22), the flag aside. -/
def Instr.IsDest (r : Reg) : Instr → Prop
  | .ldImm x _ | .addImm x _ | .rnd x _ | .ldVxDt x => r = x
  | .ldReg x _ | .orReg x _ | .andReg x _ | .xorReg x _ => r = x
  | .addReg x _ | .subReg x _ | .subnReg x _ | .shr x _ | .shl x _ => r = x
  | .loadRegs x => r.val ≤ x.val
  | _ => False

/-- The instructions that write I: Annn, Fx1E and Fx29 (10_state.md R24). -/
def Instr.WritesIndex : Instr → Prop
  | .ldI _ | .addI _ | .ldF _ => True
  | _ => False

/-- The instructions that reach the stack: 2nnn and 00EE (10_state.md R25). -/
def Instr.UsesStack : Instr → Prop
  | .call _ | .ret => True
  | _ => False

/-- The pixels an instruction run on `s` may change (10_state.md R29): 00E0 all of them, Dxyn those under the n rows of 8
columns from the anchor on (47_display.md R201, R203). -/
def Instr.MayDraw (s : Machine.State) (r c : Nat) : Instr → Prop
  | .cls => True
  | .drw x y n => Machine.InRun (Machine.anchorRow (s.reg y)) n.toNat r ∧ Machine.InRun (Machine.anchorCol (s.reg x)) 8 c
  | _ => False

/-- The addresses an instruction run on `s` stores to (20_memory.md R51): Fx33 three bytes from I on, Fx55 x + 1 bytes from
I on. -/
def Instr.StoresTo (s : Machine.State) (a : Nat) : Instr → Prop
  | .ldB _ => Machine.InRun s.i.toNat 3 a
  | .storeRegs x => Machine.InRun s.i.toNat (x.val + 1) a
  | _ => False

/-- The instructions that write PC beyond the advance of every step: the control flow family, the key skips and Fx0A. -/
def Instr.WritesPc : Instr → Prop
  | .ret | .jp _ | .call _ | .jpV0 _ => True
  | .seImm _ _ | .sneImm _ _ | .seReg _ _ | .sneReg _ _ => True
  | .skp _ | .sknp _ | .ldVxK _ => True
  | _ => False

end Sys2Proof

namespace Sys2Proof.Machine

/-- A step ends with a next state: no fatal outcome, no call the host may not make. -/
def Safe (o : Host.Outcome State Fault Refusal) : Prop := ∃ t, o = .next t

end Sys2Proof.Machine
end

