-- ==== Sys2Proof/Certificates/Slice0/Obligations.lean ====
section
/-! DEFINITION. The statements for the provers, each from the numbered rules of spec/. A docstring names the rule; where a
clause rests on one of the spec's own decisions (D1 to D22), on what it marks derived, or on this model's log, it says so. -/

open Sys2Proof Sys2Proof.Machine

/-! ### Encoding and decoding -/

/-- Decode and encode agree, bytes and rest included: no bit of an encoding is dropped (30_encoding.md section 4; the bit
patterns are decision D6, the byte order D1). -/
def Obligations.DecodeInvertsEncode : Prop :=
  ∀ (i : Instr) (rest : List Byte), decode (encodeBytes i ++ rest) = .ok (i, rest)

/-- The other direction: a word that decodes is the encoding of what it decodes to (30_encoding.md section 4, D6). -/
def Obligations.EncodeInvertsDecode : Prop :=
  ∀ (w : Word) (i : Instr), decodeWord w = .ok i → encode i = w

/-- No word matches two rows of the table, so the first-match rule never decides anything (30_encoding.md R75, derived). -/
def Obligations.NoWordMatchesTwoRows : Prop :=
  ∀ (w : Word) (j k : Nat) (r q : OpcodeRow), opcodeTable[j]? = some r → opcodeTable[k]? = some q →
    r.recognises w = true → q.recognises w = true → j = k

/-- The unsupported words are exactly the ranges of 30_encoding.md R79 (derived from the table; D6). -/
def Obligations.UnsupportedWordsAreTheListedRanges : Prop :=
  ∀ w : Word, decodeWord w = .error (.unsupportedOpcode w) ↔
    (w.toNat / 0x1000 = 0x0 ∧ w ≠ 0x00E0 ∧ w ≠ 0x00EE) ∨
    (w.toNat / 0x1000 = 0x5 ∧ w.toNat % 16 ≠ 0) ∨
    (w.toNat / 0x1000 = 0x8 ∧ w.toNat % 16 ∈ [0x8, 0x9, 0xA, 0xB, 0xC, 0xD, 0xF]) ∨
    (w.toNat / 0x1000 = 0x9 ∧ w.toNat % 16 ≠ 0) ∨
    (w.toNat / 0x1000 = 0xE ∧ w.toNat % 256 ∉ [0x9E, 0xA1]) ∨
    (w.toNat / 0x1000 = 0xF ∧ w.toNat % 256 ∉ [0x07, 0x0A, 0x15, 0x18, 0x1E, 0x29, 0x33, 0x55, 0x65])

/-- The decode identities of 30_encoding.md R86, over the fields as numbers. -/
def Obligations.FieldsMakeTheOpcode : Prop :=
  ∀ w : Word,
    w = BitVec.ofNat 16 (w.toNat / 0x1000) <<< 12 ||| BitVec.ofNat 16 (fieldX w).val <<< 8 |||
      BitVec.ofNat 16 (fieldY w).val <<< 4 ||| (fieldN w).setWidth 16 ∧
    fieldNN w = BitVec.ofNat 8 (fieldY w).val <<< 4 ||| (fieldN w).setWidth 8 ∧
    fieldNNN w = (BitVec.ofNat 12 (fieldX w).val <<< 8 ||| (fieldNN w).setWidth 12) &&& 0xFFF ∧
    (BitVec.ofNat 12 (fieldX w).val <<< 8 ||| (fieldNN w).setWidth 12) &&& 0xFFF =
      BitVec.ofNat 12 (fieldX w).val <<< 8 ||| (fieldNN w).setWidth 12

/-- One word of each format, written out from 30_encoding.md section 4, decodes to its instruction. -/
def Obligations.WrittenOutWordsDecode : Prop :=
  decodeWord 0b0000000011100000 = .ok .cls ∧
  decodeWord 0b0001001000110100 = .ok (.jp 0x234) ∧
  decodeWord 0b0110101011111111 = .ok (.ldImm 0xA 0xFF) ∧
  decodeWord 0b1000000100101110 = .ok (.shl 1 2) ∧
  decodeWord 0b1101111111110000 = .ok (.drw 15 15 0) ∧
  decodeWord 0b1111000100001010 = .ok (.ldVxK 1)

/-! ### The step -/

/-- A STEP RUNS THE DECODED INSTRUCTION (30_encoding.md section 3: the step cycle; D1 the byte order, D2 and D13 the order of
the actions, D12 the timers). When the big-endian word at PC decodes, the step is `exec` of it on the machine whose keys and
random byte are latched, whose timers are ticked, whose PC is two further and whose report is `Ok`; the rest is as before,
and the inputs taken are gone (log entries 1 and 2). -/
def Obligations.StepRunsTheDecodedInstruction : Prop :=
  ∀ (s : State) (w : Word) (i : Instr), s.halted = false → s.pc.toNat + 1 < 4096 →
    w.toNat = 256 * (s.byteAt s.pc.toNat).toNat + (s.byteAt (s.pc.toNat + 1)).toNat → decodeWord w = .ok i →
    ∃ t, step s = exec i t ∧
      t.pc.toNat = s.pc.toNat + 2 ∧ t.key = s.nextInput.keyInput ∧ t.rnd = s.nextInput.rnd ∧ t.report = .ok ∧
      t.dt.toNat = s.dt.toNat - (s.dtAcc + s.nextInput.elapsed) / 17000000 ∧
      t.dtAcc = (s.dtAcc + s.nextInput.elapsed) % 17000000 ∧
      t.st.toNat = s.st.toNat - (s.stAcc + s.nextInput.elapsed) / 17000000 ∧
      t.stAcc = (s.stAcc + s.nextInput.elapsed) % 17000000 ∧
      t.pending = s.pending.tail ∧ t.stepCount = s.stepCount + 1 ∧
      s.OnlyChanges t (fun p => p ∈ [.pc, .key, .rnd, .report, .dt, .dtAcc, .st, .stAcc, .pending, .stepCount])

/-- `UnsupportedOpcode` (30_encoding.md section 5, decision D14; the step cycle of its section 3, D2 and D13): a word that
matches no row is reported raw (the code is D18, log entry 25), the keys are latched, PC is two further, and nothing else has
changed but the timers and what holds the step's inputs (log entries 1 and 2). The word at PC is big-endian by D1 (log entry
10); the DT, ST and accumulator clauses are the arithmetic of D12 (60_exceptions.md section 2; log entry 20). The step ends in
a next state (log entry 3). -/
def Obligations.UnsupportedOpcodeIsReportedAndSkipped : Prop :=
  ∀ (s : State) (w : Word), s.halted = false → s.pc.toNat + 1 < 4096 →
    w.toNat = 256 * (s.byteAt s.pc.toNat).toNat + (s.byteAt (s.pc.toNat + 1)).toNat →
    (∀ i, decodeWord w ≠ .ok i) →
    ∃ t, step s = .next t ∧ t.report.code = 1 ∧ t.report.info = w ∧
      t.pc.toNat = s.pc.toNat + 2 ∧ t.key = s.nextInput.keyInput ∧
      t.dt.toNat = s.dt.toNat - (s.dtAcc + s.nextInput.elapsed) / 17000000 ∧
      t.dtAcc = (s.dtAcc + s.nextInput.elapsed) % 17000000 ∧
      t.st.toNat = s.st.toNat - (s.stAcc + s.nextInput.elapsed) / 17000000 ∧
      t.stAcc = (s.stAcc + s.nextInput.elapsed) % 17000000 ∧
      s.OnlyChanges t (fun p => p ∈ [.pc, .key, .rnd, .report, .dt, .dtAcc, .st, .stAcc, .pending, .stepCount])

/-- A fetch that leaves memory is fatal at the first address past it (30_encoding.md section 2; decisions D3 and D4). -/
def Obligations.FetchPastMemoryIsFatal : Prop :=
  ∀ s : State, s.halted = false → 4096 ≤ s.pc.toNat + 1 →
    step s = .fault (.memReadOutOfBounds (max s.pc.toNat 4096))

/-- A halted core takes no step and stays halted under every operation of the host but reset (60_exceptions.md section 1,
decision D15; the refusal's name is log entry 5). -/
def Obligations.OnlyResetLeavesHalted : Prop :=
  ∀ (s wreck : State) (op : HostOp), s.halted = true →
    step s = .refused .coreHalted ∧
    ((transact wreck op s).1.halted = false ↔ op = .reset)

/-- What a fatal outcome tells the host: the codes of 60_exceptions.md section 1 (decision D18), the address recorded fits the
16-bit `info` word, and the core is halted, whatever else it holds (D15, log entry 4). -/
def Obligations.FatalOutcomeIsReportedAndHalts : Prop :=
  ∀ (s wreck : State) (inp : StepInput) (f : Fault), stepWith inp s = .fault f →
    (transact wreck (.step inp) s).1.halted = true ∧
    ∃ info : BitVec 16, info.toNat = f.addr ∧
      (transact wreck (.step inp) s).2 = .outcome
        (match f with
          | .memWriteOutOfBounds _ => 2
          | .memReadOutOfBounds _ => 3
          | .stackUnderflow _ => 4) info

/-- Placing an encoded instruction where the step fetches makes the very next step run it (the model's own operation, log
entry 12). -/
def Obligations.PlacedInstructionRunsNext : Prop :=
  ∀ (s : State) (i : Instr), s.halted = false → s.pc.toNat + 1 < 4096 →
    step (s.withFetchWord 16 (encode i).toNat) =
      exec i (((s.withFetchWord 16 (encode i).toNat).takeInput).beginStep s.nextInput).advance

/-! ### Invariants and reset -/

/-- Every step keeps the memory's canonical form inside 0x000..0xFFF (log entry 7) and each accumulator below one period
(10_state.md section 6, derived). -/
def Obligations.StepKeepsInvariant : Prop :=
  ∀ s t : State, s.Inv → step s = .next t → t.Inv

/-- So does every operation of the host, if what a fatal outcome leaves meets the invariant (60_exceptions.md section 4). -/
def Obligations.HostOperationsKeepInvariant : Prop :=
  ∀ (s wreck : State) (op : HostOp), s.Inv → wreck.Inv → (transact wreck op s).1.Inv

/-- The invariant holds at reset. -/
def Obligations.ResetMeetsInvariant : Prop := State.reset.Inv

/-- What reset leaves (70_reset_and_hazards.md section 1), in the state `State.reset` and after the host's reset operation
(60_exceptions.md section 4), whatever the machine held before; the operation always completes. PC and FB are the source's;
every other value is the spec's decision D16 (log entry 6). -/
def Obligations.ResetValues : Prop :=
  (∀ s wreck : State, (transact wreck .reset s).2 = .done) ∧
  ∀ t : State, (t = State.reset ∨ ∃ s wreck : State, t = (transact wreck .reset s).1) →
    (∀ r, t.reg r = 0) ∧ t.pc = 0x200 ∧ t.i = 0 ∧ t.stack = [] ∧ t.dt = 0 ∧ t.st = 0 ∧ t.dtAcc = 0 ∧ t.stAcc = 0 ∧
    t.key = 0 ∧ (∀ r c, t.pixel r c = false) ∧ (∀ a, t.byteAt a = 0) ∧ t.halted = false

/-- Canonical memories that read the same are the same data (log entry 7): one byte list stands for one memory. -/
def Obligations.CanonicalMemoryIsUnique : Prop :=
  ∀ m m' : Memory, Memory.wf m = true → Memory.wf m' = true →
    (∀ a, Memory.byteAt a m = Memory.byteAt a m') → m = m'

/-! ### Rules over all instructions -/

/-- What each instruction may write: the general registers of 10_state.md section 2 (its table is marked derived), I
(section 4), STACK (section 5), the timers (section 6), PC (41, 45); of FB (section 8) 00E0 every pixel and Dxyn those of the
sprite's rectangle (47_display.md, D7); of memory (20_memory.md section 1) Fx33 the three bytes at I and Fx55 the x + 1 bytes
at I, the addresses the meanings compute. No instruction writes KEY, an accumulator, HALTED, the report or the model's own
fields. -/
def Obligations.InstructionsWriteOnlyTheirPieces : Prop :=
  ∀ (i : Instr) (s t : State), exec i s = .next t →
    s.OnlyChanges t (fun
      | .reg r => i.IsDest r ∨ (i.WritesFlag ∧ r = VF)
      | .pc => i.WritesPc
      | .i => i.WritesIndex
      | .stack => i.UsesStack
      | .dt => ∃ x, i = .ldDtVx x
      | .st => ∃ x, i = .ldStVx x
      | .pixel r c => i.MayDraw s r c
      | .byte a => i.StoresTo s a
      | _ => False)

/-- VF after an instruction: 0 or 1 after each flag writer, on every execution; untouched by every other instruction that
does not have VF as its destination (10_state.md section 10; that the flag is written last is decision D11). -/
def Obligations.FlagWritersLeaveZeroOrOne : Prop :=
  ∀ (i : Instr) (s t : State), exec i s = .next t →
    (i.WritesFlag → t.reg VF = 0 ∨ t.reg VF = 1) ∧ (¬ i.WritesFlag → ¬ i.IsDest VF → t.reg VF = s.reg VF)

/-- No instruction is refused: each executes or is fatal (30_encoding.md section 5). -/
def Obligations.NoInstructionIsRefused : Prop :=
  ∀ (i : Instr) (s : State) (r : Refusal), exec i s ≠ .refused r

/-- Which instructions raise `MemWriteOutOfBounds`, when, and with which address: 60_exceptions.md R222. -/
def Obligations.WriteFaultsExactly : Prop :=
  ∀ (i : Instr) (s : State) (a : Nat), exec i s = .fault (.memWriteOutOfBounds a) ↔
    ((∃ x, i = .ldB x ∧ s.i.toNat > 0xFFD) ∨ (∃ x : Reg, i = .storeRegs x ∧ s.i.toNat + x.val > 0xFFF)) ∧
    a = if s.i.toNat > 0xFFF then s.i.toNat else 0x1000

/-- Which instructions raise `MemReadOutOfBounds`, when, and with which address (60_exceptions.md section 1). That a read
past memory is fatal is the spec's decision D3: no claim about a program should rest on 'it faults'. -/
def Obligations.ReadFaultsExactly : Prop :=
  ∀ (i : Instr) (s : State) (a : Nat), exec i s = .fault (.memReadOutOfBounds a) ↔
    ((∃ x y n, i = .drw x y n ∧ n.toNat > 0 ∧ s.i.toNat + n.toNat - 1 > 0xFFF) ∨
      (∃ x : Reg, i = .loadRegs x ∧ s.i.toNat + x.val > 0xFFF)) ∧
    a = if s.i.toNat > 0xFFF then s.i.toNat else 0x1000

/-- Only 00EE on an empty stack underflows; the address recorded is that of the 00EE, two below the advanced PC
(60_exceptions.md section 1; the address is decision D18). -/
def Obligations.StackUnderflowExactly : Prop :=
  ∀ (i : Instr) (s : State) (a : Word), exec i s = .fault (.stackUnderflow a) ↔
    i = .ret ∧ s.stack = [] ∧ a + 2 = s.pc

/-! ### Control flow (41_control_flow.md); PC is already the address of the next instruction -/

/-- `JP nnn`: R100. -/
def Obligations.JumpSetsPc : Prop :=
  ∀ (nnn : BitVec 12) (s : State), ∃ t, exec (.jp nnn) s = .next t ∧ t.pc.toNat = nnn.toNat ∧
    s.OnlyChanges t (· = .pc)

/-- `CALL nnn`: R101. The push never fails. -/
def Obligations.CallPushesReturnAddress : Prop :=
  ∀ (nnn : BitVec 12) (s : State), ∃ t, exec (.call nnn) s = .next t ∧ t.pc.toNat = nnn.toNat ∧
    t.stack = s.pc :: s.stack ∧ s.OnlyChanges t (· ∈ [.pc, .stack])

/-- `RET` (41_control_flow.md), the empty stack and the call and return round trip among it. That the address recorded on an
empty stack is that of the 00EE is decision D18 (log entry 25); the fatal core takes no further step by
`OnlyResetLeavesHalted`. -/
def Obligations.ReturnPopsPc : Prop :=
  (∀ (s : State) (a : Word) (rest : List Word), s.stack = a :: rest →
    ∃ t, exec .ret s = .next t ∧ t.pc = a ∧ t.stack = rest ∧ s.OnlyChanges t (· ∈ [.pc, .stack])) ∧
  (∀ s : State, s.stack = [] → ∃ a, a + 2 = s.pc ∧ exec .ret s = .fault (.stackUnderflow a)) ∧
  (∀ (s : State) (nnn : BitVec 12) (p : Word), ∃ t u, exec (.call nnn) s = .next t ∧ exec .ret (t.setPc p) = .next u ∧
    u.pc = s.pc ∧ u.stack = s.stack)

/-- `JP V0, nnn` (41_control_flow.md section 1): the advanced PC plus nnn plus V0, modulo 2^16. That it is the advanced PC is
decision D2. -/
def Obligations.JumpOffsetAddsToAdvancedPc : Prop :=
  ∀ (nnn : BitVec 12) (s : State), ∃ t, exec (.jpV0 nnn) s = .next t ∧
    t.pc.toNat = (s.pc.toNat + nnn.toNat + (s.reg 0).toNat) % 65536 ∧ s.OnlyChanges t (· = .pc)

/-- `SE Vx, nn` and `SNE Vx, nn`: R103, R104. A skip adds two to PC, modulo 2^16. -/
def Obligations.SkipsOnConstant : Prop :=
  ∀ (x : Reg) (nn : Byte) (s : State),
    (∃ t, exec (.seImm x nn) s = .next t ∧ s.OnlyChanges t (· = .pc) ∧
      t.pc.toNat = (s.pc.toNat + if (s.reg x).toNat = nn.toNat then 2 else 0) % 65536) ∧
    (∃ t, exec (.sneImm x nn) s = .next t ∧ s.OnlyChanges t (· = .pc) ∧
      t.pc.toNat = (s.pc.toNat + if (s.reg x).toNat = nn.toNat then 0 else 2) % 65536)

/-- `SE Vx, Vy` and `SNE Vx, Vy`: R105, R106. -/
def Obligations.SkipsOnRegisters : Prop :=
  ∀ (x y : Reg) (s : State),
    (∃ t, exec (.seReg x y) s = .next t ∧ s.OnlyChanges t (· = .pc) ∧
      t.pc.toNat = (s.pc.toNat + if (s.reg x).toNat = (s.reg y).toNat then 2 else 0) % 65536) ∧
    (∃ t, exec (.sneReg x y) s = .next t ∧ s.OnlyChanges t (· = .pc) ∧
      t.pc.toNat = (s.pc.toNat + if (s.reg x).toNat = (s.reg y).toNat then 0 else 2) % 65536)

/-! ### Transfer, constant add, logic (42_transfer_logic.md): no flag -/

/-- `LD Vx, nn` and `ADD Vx, nn`: R120, R121. -/
def Obligations.ConstantLoadAndAdd : Prop :=
  ∀ (x : Reg) (nn : Byte) (s : State),
    (∃ t, exec (.ldImm x nn) s = .next t ∧ t.reg x = nn ∧ s.OnlyChanges t (· = .reg x)) ∧
    (∃ t, exec (.addImm x nn) s = .next t ∧ (t.reg x).toNat = ((s.reg x).toNat + nn.toNat) % 256 ∧
      s.OnlyChanges t (· = .reg x))

/-- `LD`, `OR`, `AND`, `XOR` of two registers: R122 to R125, bit by bit. -/
def Obligations.CopyAndLogicBitwise : Prop :=
  ∀ (x y : Reg) (s : State),
    (∃ t, exec (.ldReg x y) s = .next t ∧ t.reg x = s.reg y ∧ s.OnlyChanges t (· = .reg x)) ∧
    (∃ t, exec (.orReg x y) s = .next t ∧ s.OnlyChanges t (· = .reg x) ∧
      ∀ k, (t.reg x).getLsbD k = ((s.reg x).getLsbD k || (s.reg y).getLsbD k)) ∧
    (∃ t, exec (.andReg x y) s = .next t ∧ s.OnlyChanges t (· = .reg x) ∧
      ∀ k, (t.reg x).getLsbD k = ((s.reg x).getLsbD k && (s.reg y).getLsbD k)) ∧
    (∃ t, exec (.xorReg x y) s = .next t ∧ s.OnlyChanges t (· = .reg x) ∧
      ∀ k, (t.reg x).getLsbD k = ((s.reg x).getLsbD k ^^ (s.reg y).getLsbD k))

/-! ### Flagged arithmetic and shifts (43_flagged_arith_shift.md): VF is written last, so x = F keeps the flag (D11) -/

/-- `ADD Vx, Vy` (43_flagged_arith_shift.md). That for x = F the flag is what VF keeps is decision D11 (log entry 19). -/
def Obligations.AddSetsCarry : Prop :=
  ∀ (x y : Reg) (s : State), ∃ t, exec (.addReg x y) s = .next t ∧
    (x ≠ VF → (t.reg x).toNat = ((s.reg x).toNat + (s.reg y).toNat) % 256) ∧
    (t.reg VF).toNat = (if (s.reg x).toNat + (s.reg y).toNat > 255 then 1 else 0) ∧
    s.OnlyChanges t (· ∈ [.reg x, .reg VF])

/-- `SUB Vx, Vy` and `SUBN Vx, Vy` (43_flagged_arith_shift.md). For x = F the flag is what VF keeps: decision D11 (log entry
19). -/
def Obligations.SubtractSetsNotBorrow : Prop :=
  ∀ (x y : Reg) (s : State),
    (∃ t, exec (.subReg x y) s = .next t ∧
      (x ≠ VF → (t.reg x).toNat = (256 + (s.reg x).toNat - (s.reg y).toNat) % 256) ∧
      (t.reg VF).toNat = (if (s.reg y).toNat > (s.reg x).toNat then 0 else 1) ∧
      s.OnlyChanges t (· ∈ [.reg x, .reg VF])) ∧
    (∃ t, exec (.subnReg x y) s = .next t ∧
      (x ≠ VF → (t.reg x).toNat = (256 + (s.reg y).toNat - (s.reg x).toNat) % 256) ∧
      (t.reg VF).toNat = (if (s.reg x).toNat > (s.reg y).toNat then 0 else 1) ∧
      s.OnlyChanges t (· ∈ [.reg x, .reg VF]))

/-- `SHR Vx {, Vy}` and `SHL Vx {, Vy}` (43_flagged_arith_shift.md). Every y gives the same result. For x = F the flag is what
VF keeps: decision D11 (log entry 19). -/
def Obligations.ShiftsSetBitShiftedOut : Prop :=
  ∀ (x y : Reg) (s : State),
    (∃ t, exec (.shr x y) s = .next t ∧ (x ≠ VF → (t.reg x).toNat = (s.reg x).toNat / 2) ∧
      (t.reg VF).toNat = (s.reg x).toNat % 2 ∧ s.OnlyChanges t (· ∈ [.reg x, .reg VF]) ∧
      ∀ y', exec (.shr x y') s = .next t) ∧
    (∃ t, exec (.shl x y) s = .next t ∧ (x ≠ VF → (t.reg x).toNat = 2 * (s.reg x).toNat % 256) ∧
      (t.reg VF).toNat = (s.reg x).toNat / 128 ∧ s.OnlyChanges t (· ∈ [.reg x, .reg VF]) ∧
      ∀ y', exec (.shl x y') s = .next t)

/-! ### Index and random (44_index_random.md) -/

/-- `LD I, nnn`: R160. -/
def Obligations.SetIndexZeroExtends : Prop :=
  ∀ (nnn : BitVec 12) (s : State), ∃ t, exec (.ldI nnn) s = .next t ∧ t.i.toNat = nnn.toNat ∧ s.OnlyChanges t (· = .i)

/-- `ADD I, Vx` (44_index_random.md): I wraps modulo 2^16 and VF says whether the new I is above 0xFFF. That V[x] is read
before VF is written, which x = F shows, is decision D11. -/
def Obligations.AddToIndexSetsRangeFlag : Prop :=
  ∀ (x : Reg) (s : State), ∃ t, exec (.addI x) s = .next t ∧
    t.i.toNat = (s.i.toNat + (s.reg x).toNat) % 65536 ∧
    (t.reg VF).toNat = (if (s.i.toNat + (s.reg x).toNat) % 65536 > 0xFFF then 1 else 0) ∧
    s.OnlyChanges t (· ∈ [.i, .reg VF])

/-- `RND Vx, nn`: R162, for every value of the step's random byte; no bit outside the mask is ever set. -/
def Obligations.RandomByteUnderMask : Prop :=
  ∀ (x : Reg) (nn : Byte) (s : State), ∃ t, exec (.rnd x nn) s = .next t ∧ s.OnlyChanges t (· = .reg x) ∧
    (∀ k, (t.reg x).getLsbD k = (s.rnd.getLsbD k && nn.getLsbD k)) ∧ t.reg x &&& ~~~nn = 0

/-! ### Keys and timers (45_keys_timers.md) -/

/-- `SKP Vx` and `SKNP Vx`: R170, R171. The low nibble of V[x] selects the key. -/
def Obligations.KeySkips : Prop :=
  ∀ (x : Reg) (s : State),
    (∃ t, exec (.skp x) s = .next t ∧ s.OnlyChanges t (· = .pc) ∧
      t.pc.toNat = (s.pc.toNat + if s.key.getLsbD ((s.reg x).toNat % 16) then 2 else 0) % 65536) ∧
    (∃ t, exec (.sknp x) s = .next t ∧ s.OnlyChanges t (· = .pc) ∧
      t.pc.toNat = (s.pc.toNat + if s.key.getLsbD ((s.reg x).toNat % 16) then 0 else 2) % 65536)

/-- `LD Vx, K` (45_keys_timers.md section 1): while key V[x] & 0xF is up PC goes back by two, modulo 2^16; when it is down
nothing is written. That this is the key checked and that V[x] is not written is decision D9. -/
def Obligations.GetKeyWaits : Prop :=
  ∀ (x : Reg) (s : State), ∃ t, exec (.ldVxK x) s = .next t ∧ s.OnlyChanges t (· = .pc) ∧
    t.pc.toNat = if s.key.getLsbD ((s.reg x).toNat % 16) then s.pc.toNat else (s.pc.toNat + 65534) % 65536

/-- `LD Vx, DT`, `LD DT, Vx`, `LD ST, Vx`: R173 to R175. The accumulators keep their values. -/
def Obligations.TimerTransfers : Prop :=
  ∀ (x : Reg) (s : State),
    (∃ t, exec (.ldVxDt x) s = .next t ∧ t.reg x = s.dt ∧ s.OnlyChanges t (· = .reg x)) ∧
    (∃ t, exec (.ldDtVx x) s = .next t ∧ t.dt = s.reg x ∧ s.OnlyChanges t (· = .dt)) ∧
    (∃ t, exec (.ldStVx x) s = .next t ∧ t.st = s.reg x ∧ s.OnlyChanges t (· = .st))

/-- Timer decay is a function of the cumulative elapsed time, not of how it is cut into steps (60_exceptions.md section 2;
the arithmetic is decision D12). -/
def Obligations.TimerDecayIsCumulative : Prop :=
  ∀ (s : State) (a b : Nat), (s.tick a).tick b = s.tick (a + b)

/-- The timer set edge case (70_reset_and_hazards.md section 3, derived): after `LD DT, Vx` the first decrement comes once
`P - acc` nanoseconds have passed, and no sooner. -/
def Obligations.TimerSetKeepsAccumulator : Prop :=
  ∀ (x : Reg) (s : State) (e : Nat), s.dtAcc < 17000000 → 0 < (s.reg x).toNat → e < 17000000 →
    ∃ t, exec (.ldDtVx x) s = .next t ∧
      ((t.tick e).dt.toNat = if e < 17000000 - s.dtAcc then (s.reg x).toNat else (s.reg x).toNat - 1)

/-! ### Font address, BCD, block transfer (46_font_bcd_block.md) -/

/-- `LD F, Vx`: R190. The whole byte counts; memory is not read. -/
def Obligations.FontAddress : Prop :=
  ∀ (x : Reg) (s : State), ∃ t, exec (.ldF x) s = .next t ∧ t.i.toNat = 0x50 + 5 * (s.reg x).toNat ∧
    s.OnlyChanges t (· = .i)

/-- `LD B, Vx` (46_font_bcd_block.md). Three digits from I on, or fatal at the first address past memory; that I is unchanged
is decision D10 (log entry 18). -/
def Obligations.BcdStoresDigits : Prop :=
  ∀ (x : Reg) (s : State),
    (s.i.toNat ≤ 0xFFD → ∃ t, exec (.ldB x) s = .next t ∧
      (t.byteAt s.i.toNat).toNat = (s.reg x).toNat / 100 ∧
      (t.byteAt (s.i.toNat + 1)).toNat = (s.reg x).toNat / 10 % 10 ∧
      (t.byteAt (s.i.toNat + 2)).toNat = (s.reg x).toNat % 10 ∧
      s.OnlyChanges t (fun p => ∃ a, InRun s.i.toNat 3 a ∧ p = .byte a)) ∧
    (s.i.toNat > 0xFFD →
      exec (.ldB x) s = .fault (.memWriteOutOfBounds (if s.i.toNat > 0xFFF then s.i.toNat else 0x1000)))

/-- `LD [I], Vx` (46_font_bcd_block.md). V0 to Vx from I on, or fatal at the first address past memory; that I is unchanged is
decision D10 (log entry 18). -/
def Obligations.StoreRegistersToMemory : Prop :=
  ∀ (x : Reg) (s : State),
    (s.i.toNat + x.val ≤ 0xFFF → ∃ t, exec (.storeRegs x) s = .next t ∧
      (∀ r : Reg, r.val ≤ x.val → t.byteAt (s.i.toNat + r.val) = s.reg r) ∧
      s.OnlyChanges t (fun p => ∃ a, InRun s.i.toNat (x.val + 1) a ∧ p = .byte a)) ∧
    (s.i.toNat + x.val > 0xFFF →
      exec (.storeRegs x) s = .fault (.memWriteOutOfBounds (if s.i.toNat > 0xFFF then s.i.toNat else 0x1000)))

/-- `LD Vx, [I]` (46_font_bcd_block.md): V0 to Vx from the bytes at I on; I is unchanged (D10). -/
def Obligations.LoadRegistersFromMemory : Prop :=
  ∀ (x : Reg) (s : State), s.i.toNat + x.val ≤ 0xFFF → ∃ t, exec (.loadRegs x) s = .next t ∧
    (∀ r : Reg, r.val ≤ x.val → t.reg r = s.byteAt (s.i.toNat + r.val)) ∧
    s.OnlyChanges t (fun p => ∃ r : Reg, r.val ≤ x.val ∧ p = .reg r)

/-- Fx55 then Fx65 with the same I and x restores V0 to Vx, whatever the registers held in between
(46_font_bcd_block.md). -/
def Obligations.StoreThenLoadRestores : Prop :=
  ∀ (x : Reg) (s t : State) (v : Vector Byte 16), exec (.storeRegs x) s = .next t →
    ∃ u, exec (.loadRegs x) { t with v := v } = .next u ∧ ∀ r : Reg, r.val ≤ x.val → u.reg r = s.reg r

/-- Self-modifying code (20_memory.md section 6, derived): a word that Fx55 stored is the word the next fetch there reads, the
lower register in the high byte (D1). -/
def Obligations.StoredWordIsFetched : Prop :=
  ∀ (x r q : Reg) (s t : State) (p : Word), exec (.storeRegs x) s = .next t → q.val = r.val + 1 → q.val ≤ x.val →
    p.toNat = s.i.toNat + r.val →
    ∃ w, (t.setPc p).fetch = .ok w ∧ w.toNat = 256 * (s.reg r).toNat + (s.reg q).toNat

/-! ### Display (47_display.md) -/

/-- `CLS`: R200 and `clear()` R204. VF is not written. -/
def Obligations.ClearScreen : Prop :=
  ∀ s : State, ∃ t, exec .cls s = .next t ∧ (∀ r c, t.pixel r c = false) ∧
    s.OnlyChanges t (fun p => ∃ r c, p = .pixel r c)

/-- `DRW Vx, Vy, n` (47_display.md): the pixel at (r, c) is inverted exactly when a 1 bit of the sprite lies over it; the
anchor wraps, the sprite is cut at the right and bottom edges; nothing but FB changes. The coordinates, the sprite's address
and the bit order are decision D7, that all bytes are read first is D8. -/
def Obligations.DrawFlipsUnderOneBits : Prop :=
  ∀ (x y : Reg) (n : BitVec 4) (s : State), n.toNat = 0 ∨ s.i.toNat + n.toNat ≤ 4096 →
    ∃ t, exec (.drw x y n) s = .next t ∧
      (∀ r c, t.pixel r c =
        (s.pixel r c ^^
          (decide ((s.reg y).toNat % 32 ≤ r ∧ r < (s.reg y).toNat % 32 + n.toNat ∧ r < 32 ∧
              (s.reg x).toNat % 64 ≤ c ∧ c < (s.reg x).toNat % 64 + 8 ∧ c < 64) &&
            (s.byteAt (s.i.toNat + (r - (s.reg y).toNat % 32))).getLsbD (7 - (c - (s.reg x).toNat % 64))))) ∧
      s.OnlyChanges t (fun p => ∃ r c, p = .pixel r c)

/-- XOR involution (47_display.md section 1, derived): the same draw twice restores the machine. -/
def Obligations.DrawTwiceRestores : Prop :=
  ∀ (x y : Reg) (n : BitVec 4) (s t : State), exec (.drw x y n) s = .next t → exec (.drw x y n) t = .next s

/-- No collision flag: R202. Whatever pixels a draw turns off, no register changes. -/
def Obligations.DrawWritesNoRegister : Prop :=
  ∀ (x y : Reg) (n : BitVec 4) (s : State), n.toNat = 0 ∨ s.i.toNat + n.toNat ≤ 4096 →
    ∃ t, exec (.drw x y n) s = .next t ∧ ∀ r, t.reg r = s.reg r

/-! ### The host's loads (70_reset_and_hazards.md section 2, decision D17) -/

/-- `write_font`: 80 bytes go to 0x050..0x09F and nothing else changes; any other length is refused and changes nothing. -/
def Obligations.WriteFontPlacesGlyphs : Prop :=
  ∀ (s wreck : State) (bytes : List Byte),
    (bytes.length = 80 → ∃ t, transact wreck (.writeFont bytes) s = (t, .done) ∧
      (∀ k (h : k < bytes.length), t.byteAt (0x050 + k) = bytes[k]) ∧
      s.OnlyChanges t (fun p => ∃ a, InRun 0x050 80 a ∧ p = .byte a)) ∧
    (bytes.length ≠ 80 → transact wreck (.writeFont bytes) s = (s, .refused (.fontBufferLength bytes.length)))

/-- `load_program`: at most 2048 bytes go to 0x200 on and PC is 0x200, nothing else changes; a longer program is
`ProgramTooLarge` and changes nothing. -/
def Obligations.LoadProgramIsAllOrNothing : Prop :=
  ∀ (s wreck : State) (bytes : List Byte),
    (bytes.length ≤ 2048 → ∃ t, transact wreck (.loadProgram bytes) s = (t, .done) ∧ t.pc = 0x200 ∧
      (∀ k (h : k < bytes.length), t.byteAt (0x200 + k) = bytes[k]) ∧
      s.OnlyChanges t (fun p => p = .pc ∨ ∃ a, InRun 0x200 bytes.length a ∧ p = .byte a)) ∧
    (bytes.length > 2048 → transact wreck (.loadProgram bytes) s = (s, .programTooLarge))

/-- `step` as the host's transaction answers what R226's table gives for an outcome that is not fatal: code 0 and info 0 for
`Ok`, code 1 and the opcode for `UnsupportedOpcode` (60_exceptions.md section 1; the numbers are decision D18). -/
def Obligations.StepReplyNamesTheOutcome : Prop :=
  ∀ (s t wreck : State) (inp : StepInput), stepWith inp s = .next t →
    (transact wreck (.step inp) s).1 = t ∧
    ((∃ w, decodeWord w = .error (.unsupportedOpcode w) ∧ (s.beginStep inp).fetch = .ok w ∧
        (transact wreck (.step inp) s).2 = .outcome 1 w) ∨
     (∃ w i, decodeWord w = .ok i ∧ (s.beginStep inp).fetch = .ok w ∧
        (transact wreck (.step inp) s).2 = .outcome 0 0))

/-- `get_state` (60_exceptions.md R241): it answers V, PC, I, STACK, DT, ST, KEY, FB and MEM as they stand, and changes
nothing. That the model's view leaves out both accumulators is the model's choice, log entry 15; this statement does not rest
on it. HALTED is `GetStateShowsHalted`. -/
def Obligations.GetStateShowsTheMachine : Prop :=
  ∀ s wreck : State, ∃ view, transact wreck .getState s = (s, .view view) ∧
    (∀ r : Reg, view.v[r] = s.reg r) ∧ view.pc = s.pc ∧ view.i = s.i ∧ view.stack = s.stack ∧ view.dt = s.dt ∧
    view.st = s.st ∧ view.key = s.key ∧ (∀ r c, Display.pixel view.fb r c = s.pixel r c) ∧
    ∀ a, Memory.byteAt a view.mem = s.byteAt a

/-- `get_state` shows HALTED (60_exceptions.md section 4: a view of all of 10_state.md, whose section 10 has HALTED; D15, D21):
as it stands in any machine, true after a step that was fatal, false after the reset operation. -/
def Obligations.GetStateShowsHalted : Prop :=
  (∀ s wreck : State, ∃ view, (transact wreck .getState s).2 = .view view ∧ view.halted = s.halted) ∧
  (∀ (s wreck : State) (inp : StepInput) (f : Fault), stepWith inp s = .fault f →
    ∃ view, (transact wreck .getState (transact wreck (.step inp) s).1).2 = .view view ∧ view.halted = true) ∧
  ∀ s wreck : State, ∃ view, (transact wreck .getState (transact wreck .reset s).1).2 = .view view ∧ view.halted = false
end

