-- ==== Sys2Proof/Laws/Decode.lean ====
section
/-! SUPPORT. The masks of the opcode table as fields of the word, and the fields of an encoded word (30_encoding.md R76). -/

namespace Sys2Proof

/-- Mask F000 keeps the operation nibble. -/
theorem and_F000 (w : Word) : w &&& 0xF000 = nibbleAt 12 (w.extractLsb' 12 4) := by
  apply BitVec.eq_of_getLsbD_eq; intro k hk
  interval_cases k <;> simp [nibbleAt]

/-- Mask F00F keeps the operation nibble and the lowest nibble. -/
theorem and_F00F (w : Word) : w &&& 0xF00F = nibbleAt 12 (w.extractLsb' 12 4) ||| nibbleAt 0 (w.extractLsb' 0 4) := by
  apply BitVec.eq_of_getLsbD_eq; intro k hk
  interval_cases k <;> simp [nibbleAt]

/-- Mask F0FF keeps the operation nibble and the low byte. -/
theorem and_F0FF (w : Word) : w &&& 0xF0FF = nibbleAt 12 (w.extractLsb' 12 4) ||| (w.extractLsb' 0 8).setWidth 16 := by
  apply BitVec.eq_of_getLsbD_eq; intro k hk
  interval_cases k <;> simp [nibbleAt]

theorem formNNN_op (op : BitVec 4) (nnn : BitVec 12) : (formNNN op nnn).extractLsb' 12 4 = op := by
  apply BitVec.eq_of_getLsbD_eq; intro k hk
  interval_cases k <;> simp [formNNN, nibbleAt]

@[simp] theorem fieldNNN_formNNN (op : BitVec 4) (nnn : BitVec 12) : fieldNNN (formNNN op nnn) = nnn := by
  apply BitVec.eq_of_getLsbD_eq; intro k hk
  interval_cases k <;> simp [fieldNNN, formNNN, nibbleAt]

/-- The 4-bit field of a register number reads back as the number. -/
theorem regBits_toFin (r : Reg) : (regBits r).toFin = r := by
  apply Fin.ext; simp [regBits]

theorem formXNN_op (op : BitVec 4) (x : Reg) (nn : Byte) : (formXNN op x nn).extractLsb' 12 4 = op := by
  apply BitVec.eq_of_getLsbD_eq; intro k hk
  interval_cases k <;> simp [formXNN, nibbleAt]

@[simp] theorem fieldX_formXNN (op : BitVec 4) (x : Reg) (nn : Byte) : fieldX (formXNN op x nn) = x := by
  have e : (formXNN op x nn).extractLsb' 8 4 = regBits x := by
    apply BitVec.eq_of_getLsbD_eq; intro k hk
    interval_cases k <;> simp [formXNN, nibbleAt]
  rw [fieldX, e, regBits_toFin]

@[simp] theorem fieldNN_formXNN (op : BitVec 4) (x : Reg) (nn : Byte) : fieldNN (formXNN op x nn) = nn := by
  apply BitVec.eq_of_getLsbD_eq; intro k hk
  interval_cases k <;> simp [fieldNN, formXNN, nibbleAt]

theorem formXYN_op (op : BitVec 4) (x y : Reg) (n : BitVec 4) : (formXYN op x y n).extractLsb' 12 4 = op := by
  apply BitVec.eq_of_getLsbD_eq; intro k hk
  interval_cases k <;> simp [formXYN, nibbleAt]

@[simp] theorem fieldX_formXYN (op : BitVec 4) (x y : Reg) (n : BitVec 4) : fieldX (formXYN op x y n) = x := by
  have e : (formXYN op x y n).extractLsb' 8 4 = regBits x := by
    apply BitVec.eq_of_getLsbD_eq; intro k hk
    interval_cases k <;> simp [formXYN, nibbleAt]
  rw [fieldX, e, regBits_toFin]

@[simp] theorem fieldY_formXYN (op : BitVec 4) (x y : Reg) (n : BitVec 4) : fieldY (formXYN op x y n) = y := by
  have e : (formXYN op x y n).extractLsb' 4 4 = regBits y := by
    apply BitVec.eq_of_getLsbD_eq; intro k hk
    interval_cases k <;> simp [formXYN, nibbleAt]
  rw [fieldY, e, regBits_toFin]

@[simp] theorem fieldN_formXYN (op : BitVec 4) (x y : Reg) (n : BitVec 4) : fieldN (formXYN op x y n) = n := by
  apply BitVec.eq_of_getLsbD_eq; intro k hk
  interval_cases k <;> simp [fieldN, formXYN, nibbleAt]

/-- The bytes of a word make the word again (20_memory.md R56). -/
@[simp] theorem wordOfBytes_bytes (w : Word) : wordOfBytes (highByte w) (lowByte w) = w := by
  apply BitVec.eq_of_getLsbD_eq; intro k hk
  interval_cases k <;> simp [wordOfBytes, highByte, lowByte]

/-- A rejected word is rejected by its own value (R78). -/
theorem decodeWord_error {w : Word} {e : Reject} (h : decodeWord w = .error e) : e = .unsupportedOpcode w := by
  unfold decodeWord at h
  split at h
  · cases h
  · cases h; rfl

end Sys2Proof
end

