-- ==== Sys2Proof/Laws/State.lean ====
section
/-! SUPPORT. What each named update does to each field of the state, true by `rfl`: with these no proof unfolds a record
update. One group per update. -/

namespace Sys2Proof.Machine

/-! ### setPc -/

@[simp] theorem State.setPc_v (s : State) (a : Word) : (s.setPc a).v = s.v := rfl
@[simp] theorem State.setPc_pc (s : State) (a : Word) : (s.setPc a).pc = a := rfl
@[simp] theorem State.setPc_i (s : State) (a : Word) : (s.setPc a).i = s.i := rfl
@[simp] theorem State.setPc_stack (s : State) (a : Word) : (s.setPc a).stack = s.stack := rfl
@[simp] theorem State.setPc_dt (s : State) (a : Word) : (s.setPc a).dt = s.dt := rfl
@[simp] theorem State.setPc_st (s : State) (a : Word) : (s.setPc a).st = s.st := rfl
@[simp] theorem State.setPc_dtAcc (s : State) (a : Word) : (s.setPc a).dtAcc = s.dtAcc := rfl
@[simp] theorem State.setPc_stAcc (s : State) (a : Word) : (s.setPc a).stAcc = s.stAcc := rfl
@[simp] theorem State.setPc_key (s : State) (a : Word) : (s.setPc a).key = s.key := rfl
@[simp] theorem State.setPc_fb (s : State) (a : Word) : (s.setPc a).fb = s.fb := rfl
@[simp] theorem State.setPc_mem (s : State) (a : Word) : (s.setPc a).mem = s.mem := rfl
@[simp] theorem State.setPc_halted (s : State) (a : Word) : (s.setPc a).halted = s.halted := rfl
@[simp] theorem State.setPc_report (s : State) (a : Word) : (s.setPc a).report = s.report := rfl
@[simp] theorem State.setPc_rnd (s : State) (a : Word) : (s.setPc a).rnd = s.rnd := rfl
@[simp] theorem State.setPc_pending (s : State) (a : Word) : (s.setPc a).pending = s.pending := rfl
@[simp] theorem State.setPc_stepCount (s : State) (a : Word) : (s.setPc a).stepCount = s.stepCount := rfl
@[simp] theorem State.setPc_reg (s : State) (a : Word) (q : Reg) : (s.setPc a).reg q = s.reg q := rfl
@[simp] theorem State.setPc_byteAt (s : State) (a : Word) (k : Nat) : (s.setPc a).byteAt k = s.byteAt k := rfl
@[simp] theorem State.setPc_pixel (s : State) (a : Word) (row col : Nat) : (s.setPc a).pixel row col = s.pixel row col := rfl

/-! ### setI -/

@[simp] theorem State.setI_v (s : State) (a : Word) : (s.setI a).v = s.v := rfl
@[simp] theorem State.setI_pc (s : State) (a : Word) : (s.setI a).pc = s.pc := rfl
@[simp] theorem State.setI_i (s : State) (a : Word) : (s.setI a).i = a := rfl
@[simp] theorem State.setI_stack (s : State) (a : Word) : (s.setI a).stack = s.stack := rfl
@[simp] theorem State.setI_dt (s : State) (a : Word) : (s.setI a).dt = s.dt := rfl
@[simp] theorem State.setI_st (s : State) (a : Word) : (s.setI a).st = s.st := rfl
@[simp] theorem State.setI_dtAcc (s : State) (a : Word) : (s.setI a).dtAcc = s.dtAcc := rfl
@[simp] theorem State.setI_stAcc (s : State) (a : Word) : (s.setI a).stAcc = s.stAcc := rfl
@[simp] theorem State.setI_key (s : State) (a : Word) : (s.setI a).key = s.key := rfl
@[simp] theorem State.setI_fb (s : State) (a : Word) : (s.setI a).fb = s.fb := rfl
@[simp] theorem State.setI_mem (s : State) (a : Word) : (s.setI a).mem = s.mem := rfl
@[simp] theorem State.setI_halted (s : State) (a : Word) : (s.setI a).halted = s.halted := rfl
@[simp] theorem State.setI_report (s : State) (a : Word) : (s.setI a).report = s.report := rfl
@[simp] theorem State.setI_rnd (s : State) (a : Word) : (s.setI a).rnd = s.rnd := rfl
@[simp] theorem State.setI_pending (s : State) (a : Word) : (s.setI a).pending = s.pending := rfl
@[simp] theorem State.setI_stepCount (s : State) (a : Word) : (s.setI a).stepCount = s.stepCount := rfl
@[simp] theorem State.setI_reg (s : State) (a : Word) (q : Reg) : (s.setI a).reg q = s.reg q := rfl
@[simp] theorem State.setI_byteAt (s : State) (a : Word) (k : Nat) : (s.setI a).byteAt k = s.byteAt k := rfl
@[simp] theorem State.setI_pixel (s : State) (a : Word) (row col : Nat) : (s.setI a).pixel row col = s.pixel row col := rfl

/-! ### setStack -/

@[simp] theorem State.setStack_v (s : State) (l : List Word) : (s.setStack l).v = s.v := rfl
@[simp] theorem State.setStack_pc (s : State) (l : List Word) : (s.setStack l).pc = s.pc := rfl
@[simp] theorem State.setStack_i (s : State) (l : List Word) : (s.setStack l).i = s.i := rfl
@[simp] theorem State.setStack_stack (s : State) (l : List Word) : (s.setStack l).stack = l := rfl
@[simp] theorem State.setStack_dt (s : State) (l : List Word) : (s.setStack l).dt = s.dt := rfl
@[simp] theorem State.setStack_st (s : State) (l : List Word) : (s.setStack l).st = s.st := rfl
@[simp] theorem State.setStack_dtAcc (s : State) (l : List Word) : (s.setStack l).dtAcc = s.dtAcc := rfl
@[simp] theorem State.setStack_stAcc (s : State) (l : List Word) : (s.setStack l).stAcc = s.stAcc := rfl
@[simp] theorem State.setStack_key (s : State) (l : List Word) : (s.setStack l).key = s.key := rfl
@[simp] theorem State.setStack_fb (s : State) (l : List Word) : (s.setStack l).fb = s.fb := rfl
@[simp] theorem State.setStack_mem (s : State) (l : List Word) : (s.setStack l).mem = s.mem := rfl
@[simp] theorem State.setStack_halted (s : State) (l : List Word) : (s.setStack l).halted = s.halted := rfl
@[simp] theorem State.setStack_report (s : State) (l : List Word) : (s.setStack l).report = s.report := rfl
@[simp] theorem State.setStack_rnd (s : State) (l : List Word) : (s.setStack l).rnd = s.rnd := rfl
@[simp] theorem State.setStack_pending (s : State) (l : List Word) : (s.setStack l).pending = s.pending := rfl
@[simp] theorem State.setStack_stepCount (s : State) (l : List Word) : (s.setStack l).stepCount = s.stepCount := rfl
@[simp] theorem State.setStack_reg (s : State) (l : List Word) (q : Reg) : (s.setStack l).reg q = s.reg q := rfl
@[simp] theorem State.setStack_byteAt (s : State) (l : List Word) (k : Nat) : (s.setStack l).byteAt k = s.byteAt k := rfl
@[simp] theorem State.setStack_pixel (s : State) (l : List Word) (row col : Nat) : (s.setStack l).pixel row col = s.pixel row col := rfl

/-! ### setDt -/

@[simp] theorem State.setDt_v (s : State) (b : Byte) : (s.setDt b).v = s.v := rfl
@[simp] theorem State.setDt_pc (s : State) (b : Byte) : (s.setDt b).pc = s.pc := rfl
@[simp] theorem State.setDt_i (s : State) (b : Byte) : (s.setDt b).i = s.i := rfl
@[simp] theorem State.setDt_stack (s : State) (b : Byte) : (s.setDt b).stack = s.stack := rfl
@[simp] theorem State.setDt_dt (s : State) (b : Byte) : (s.setDt b).dt = b := rfl
@[simp] theorem State.setDt_st (s : State) (b : Byte) : (s.setDt b).st = s.st := rfl
@[simp] theorem State.setDt_dtAcc (s : State) (b : Byte) : (s.setDt b).dtAcc = s.dtAcc := rfl
@[simp] theorem State.setDt_stAcc (s : State) (b : Byte) : (s.setDt b).stAcc = s.stAcc := rfl
@[simp] theorem State.setDt_key (s : State) (b : Byte) : (s.setDt b).key = s.key := rfl
@[simp] theorem State.setDt_fb (s : State) (b : Byte) : (s.setDt b).fb = s.fb := rfl
@[simp] theorem State.setDt_mem (s : State) (b : Byte) : (s.setDt b).mem = s.mem := rfl
@[simp] theorem State.setDt_halted (s : State) (b : Byte) : (s.setDt b).halted = s.halted := rfl
@[simp] theorem State.setDt_report (s : State) (b : Byte) : (s.setDt b).report = s.report := rfl
@[simp] theorem State.setDt_rnd (s : State) (b : Byte) : (s.setDt b).rnd = s.rnd := rfl
@[simp] theorem State.setDt_pending (s : State) (b : Byte) : (s.setDt b).pending = s.pending := rfl
@[simp] theorem State.setDt_stepCount (s : State) (b : Byte) : (s.setDt b).stepCount = s.stepCount := rfl
@[simp] theorem State.setDt_reg (s : State) (b : Byte) (q : Reg) : (s.setDt b).reg q = s.reg q := rfl
@[simp] theorem State.setDt_byteAt (s : State) (b : Byte) (k : Nat) : (s.setDt b).byteAt k = s.byteAt k := rfl
@[simp] theorem State.setDt_pixel (s : State) (b : Byte) (row col : Nat) : (s.setDt b).pixel row col = s.pixel row col := rfl

/-! ### setSt -/

@[simp] theorem State.setSt_v (s : State) (b : Byte) : (s.setSt b).v = s.v := rfl
@[simp] theorem State.setSt_pc (s : State) (b : Byte) : (s.setSt b).pc = s.pc := rfl
@[simp] theorem State.setSt_i (s : State) (b : Byte) : (s.setSt b).i = s.i := rfl
@[simp] theorem State.setSt_stack (s : State) (b : Byte) : (s.setSt b).stack = s.stack := rfl
@[simp] theorem State.setSt_dt (s : State) (b : Byte) : (s.setSt b).dt = s.dt := rfl
@[simp] theorem State.setSt_st (s : State) (b : Byte) : (s.setSt b).st = b := rfl
@[simp] theorem State.setSt_dtAcc (s : State) (b : Byte) : (s.setSt b).dtAcc = s.dtAcc := rfl
@[simp] theorem State.setSt_stAcc (s : State) (b : Byte) : (s.setSt b).stAcc = s.stAcc := rfl
@[simp] theorem State.setSt_key (s : State) (b : Byte) : (s.setSt b).key = s.key := rfl
@[simp] theorem State.setSt_fb (s : State) (b : Byte) : (s.setSt b).fb = s.fb := rfl
@[simp] theorem State.setSt_mem (s : State) (b : Byte) : (s.setSt b).mem = s.mem := rfl
@[simp] theorem State.setSt_halted (s : State) (b : Byte) : (s.setSt b).halted = s.halted := rfl
@[simp] theorem State.setSt_report (s : State) (b : Byte) : (s.setSt b).report = s.report := rfl
@[simp] theorem State.setSt_rnd (s : State) (b : Byte) : (s.setSt b).rnd = s.rnd := rfl
@[simp] theorem State.setSt_pending (s : State) (b : Byte) : (s.setSt b).pending = s.pending := rfl
@[simp] theorem State.setSt_stepCount (s : State) (b : Byte) : (s.setSt b).stepCount = s.stepCount := rfl
@[simp] theorem State.setSt_reg (s : State) (b : Byte) (q : Reg) : (s.setSt b).reg q = s.reg q := rfl
@[simp] theorem State.setSt_byteAt (s : State) (b : Byte) (k : Nat) : (s.setSt b).byteAt k = s.byteAt k := rfl
@[simp] theorem State.setSt_pixel (s : State) (b : Byte) (row col : Nat) : (s.setSt b).pixel row col = s.pixel row col := rfl

/-! ### setFb -/

@[simp] theorem State.setFb_v (s : State) (d : Display) : (s.setFb d).v = s.v := rfl
@[simp] theorem State.setFb_pc (s : State) (d : Display) : (s.setFb d).pc = s.pc := rfl
@[simp] theorem State.setFb_i (s : State) (d : Display) : (s.setFb d).i = s.i := rfl
@[simp] theorem State.setFb_stack (s : State) (d : Display) : (s.setFb d).stack = s.stack := rfl
@[simp] theorem State.setFb_dt (s : State) (d : Display) : (s.setFb d).dt = s.dt := rfl
@[simp] theorem State.setFb_st (s : State) (d : Display) : (s.setFb d).st = s.st := rfl
@[simp] theorem State.setFb_dtAcc (s : State) (d : Display) : (s.setFb d).dtAcc = s.dtAcc := rfl
@[simp] theorem State.setFb_stAcc (s : State) (d : Display) : (s.setFb d).stAcc = s.stAcc := rfl
@[simp] theorem State.setFb_key (s : State) (d : Display) : (s.setFb d).key = s.key := rfl
@[simp] theorem State.setFb_fb (s : State) (d : Display) : (s.setFb d).fb = d := rfl
@[simp] theorem State.setFb_mem (s : State) (d : Display) : (s.setFb d).mem = s.mem := rfl
@[simp] theorem State.setFb_halted (s : State) (d : Display) : (s.setFb d).halted = s.halted := rfl
@[simp] theorem State.setFb_report (s : State) (d : Display) : (s.setFb d).report = s.report := rfl
@[simp] theorem State.setFb_rnd (s : State) (d : Display) : (s.setFb d).rnd = s.rnd := rfl
@[simp] theorem State.setFb_pending (s : State) (d : Display) : (s.setFb d).pending = s.pending := rfl
@[simp] theorem State.setFb_stepCount (s : State) (d : Display) : (s.setFb d).stepCount = s.stepCount := rfl
@[simp] theorem State.setFb_reg (s : State) (d : Display) (q : Reg) : (s.setFb d).reg q = s.reg q := rfl
@[simp] theorem State.setFb_byteAt (s : State) (d : Display) (k : Nat) : (s.setFb d).byteAt k = s.byteAt k := rfl

/-! ### setMem -/

@[simp] theorem State.setMem_v (s : State) (m : Memory) : (s.setMem m).v = s.v := rfl
@[simp] theorem State.setMem_pc (s : State) (m : Memory) : (s.setMem m).pc = s.pc := rfl
@[simp] theorem State.setMem_i (s : State) (m : Memory) : (s.setMem m).i = s.i := rfl
@[simp] theorem State.setMem_stack (s : State) (m : Memory) : (s.setMem m).stack = s.stack := rfl
@[simp] theorem State.setMem_dt (s : State) (m : Memory) : (s.setMem m).dt = s.dt := rfl
@[simp] theorem State.setMem_st (s : State) (m : Memory) : (s.setMem m).st = s.st := rfl
@[simp] theorem State.setMem_dtAcc (s : State) (m : Memory) : (s.setMem m).dtAcc = s.dtAcc := rfl
@[simp] theorem State.setMem_stAcc (s : State) (m : Memory) : (s.setMem m).stAcc = s.stAcc := rfl
@[simp] theorem State.setMem_key (s : State) (m : Memory) : (s.setMem m).key = s.key := rfl
@[simp] theorem State.setMem_fb (s : State) (m : Memory) : (s.setMem m).fb = s.fb := rfl
@[simp] theorem State.setMem_mem (s : State) (m : Memory) : (s.setMem m).mem = m := rfl
@[simp] theorem State.setMem_halted (s : State) (m : Memory) : (s.setMem m).halted = s.halted := rfl
@[simp] theorem State.setMem_report (s : State) (m : Memory) : (s.setMem m).report = s.report := rfl
@[simp] theorem State.setMem_rnd (s : State) (m : Memory) : (s.setMem m).rnd = s.rnd := rfl
@[simp] theorem State.setMem_pending (s : State) (m : Memory) : (s.setMem m).pending = s.pending := rfl
@[simp] theorem State.setMem_stepCount (s : State) (m : Memory) : (s.setMem m).stepCount = s.stepCount := rfl
@[simp] theorem State.setMem_reg (s : State) (m : Memory) (q : Reg) : (s.setMem m).reg q = s.reg q := rfl
@[simp] theorem State.setMem_pixel (s : State) (m : Memory) (row col : Nat) : (s.setMem m).pixel row col = s.pixel row col := rfl

/-! ### setReport -/

@[simp] theorem State.setReport_v (s : State) (r : Report) : (s.setReport r).v = s.v := rfl
@[simp] theorem State.setReport_pc (s : State) (r : Report) : (s.setReport r).pc = s.pc := rfl
@[simp] theorem State.setReport_i (s : State) (r : Report) : (s.setReport r).i = s.i := rfl
@[simp] theorem State.setReport_stack (s : State) (r : Report) : (s.setReport r).stack = s.stack := rfl
@[simp] theorem State.setReport_dt (s : State) (r : Report) : (s.setReport r).dt = s.dt := rfl
@[simp] theorem State.setReport_st (s : State) (r : Report) : (s.setReport r).st = s.st := rfl
@[simp] theorem State.setReport_dtAcc (s : State) (r : Report) : (s.setReport r).dtAcc = s.dtAcc := rfl
@[simp] theorem State.setReport_stAcc (s : State) (r : Report) : (s.setReport r).stAcc = s.stAcc := rfl
@[simp] theorem State.setReport_key (s : State) (r : Report) : (s.setReport r).key = s.key := rfl
@[simp] theorem State.setReport_fb (s : State) (r : Report) : (s.setReport r).fb = s.fb := rfl
@[simp] theorem State.setReport_mem (s : State) (r : Report) : (s.setReport r).mem = s.mem := rfl
@[simp] theorem State.setReport_halted (s : State) (r : Report) : (s.setReport r).halted = s.halted := rfl
@[simp] theorem State.setReport_report (s : State) (r : Report) : (s.setReport r).report = r := rfl
@[simp] theorem State.setReport_rnd (s : State) (r : Report) : (s.setReport r).rnd = s.rnd := rfl
@[simp] theorem State.setReport_pending (s : State) (r : Report) : (s.setReport r).pending = s.pending := rfl
@[simp] theorem State.setReport_stepCount (s : State) (r : Report) : (s.setReport r).stepCount = s.stepCount := rfl
@[simp] theorem State.setReport_reg (s : State) (r : Report) (q : Reg) : (s.setReport r).reg q = s.reg q := rfl
@[simp] theorem State.setReport_byteAt (s : State) (r : Report) (k : Nat) : (s.setReport r).byteAt k = s.byteAt k := rfl
@[simp] theorem State.setReport_pixel (s : State) (r : Report) (row col : Nat) : (s.setReport r).pixel row col = s.pixel row col := rfl

/-! ### setReg -/

@[simp] theorem State.setReg_v (s : State) (r : Reg) (b : Byte) : (s.setReg r b).v = s.v.set r b := rfl
@[simp] theorem State.setReg_pc (s : State) (r : Reg) (b : Byte) : (s.setReg r b).pc = s.pc := rfl
@[simp] theorem State.setReg_i (s : State) (r : Reg) (b : Byte) : (s.setReg r b).i = s.i := rfl
@[simp] theorem State.setReg_stack (s : State) (r : Reg) (b : Byte) : (s.setReg r b).stack = s.stack := rfl
@[simp] theorem State.setReg_dt (s : State) (r : Reg) (b : Byte) : (s.setReg r b).dt = s.dt := rfl
@[simp] theorem State.setReg_st (s : State) (r : Reg) (b : Byte) : (s.setReg r b).st = s.st := rfl
@[simp] theorem State.setReg_dtAcc (s : State) (r : Reg) (b : Byte) : (s.setReg r b).dtAcc = s.dtAcc := rfl
@[simp] theorem State.setReg_stAcc (s : State) (r : Reg) (b : Byte) : (s.setReg r b).stAcc = s.stAcc := rfl
@[simp] theorem State.setReg_key (s : State) (r : Reg) (b : Byte) : (s.setReg r b).key = s.key := rfl
@[simp] theorem State.setReg_fb (s : State) (r : Reg) (b : Byte) : (s.setReg r b).fb = s.fb := rfl
@[simp] theorem State.setReg_mem (s : State) (r : Reg) (b : Byte) : (s.setReg r b).mem = s.mem := rfl
@[simp] theorem State.setReg_halted (s : State) (r : Reg) (b : Byte) : (s.setReg r b).halted = s.halted := rfl
@[simp] theorem State.setReg_report (s : State) (r : Reg) (b : Byte) : (s.setReg r b).report = s.report := rfl
@[simp] theorem State.setReg_rnd (s : State) (r : Reg) (b : Byte) : (s.setReg r b).rnd = s.rnd := rfl
@[simp] theorem State.setReg_pending (s : State) (r : Reg) (b : Byte) : (s.setReg r b).pending = s.pending := rfl
@[simp] theorem State.setReg_stepCount (s : State) (r : Reg) (b : Byte) : (s.setReg r b).stepCount = s.stepCount := rfl
@[simp] theorem State.setReg_byteAt (s : State) (r : Reg) (b : Byte) (k : Nat) : (s.setReg r b).byteAt k = s.byteAt k := rfl
@[simp] theorem State.setReg_pixel (s : State) (r : Reg) (b : Byte) (row col : Nat) : (s.setReg r b).pixel row col = s.pixel row col := rfl

/-! ### tick -/

@[simp] theorem State.tick_v (s : State) (e : Nat) : (s.tick e).v = s.v := rfl
@[simp] theorem State.tick_pc (s : State) (e : Nat) : (s.tick e).pc = s.pc := rfl
@[simp] theorem State.tick_i (s : State) (e : Nat) : (s.tick e).i = s.i := rfl
@[simp] theorem State.tick_stack (s : State) (e : Nat) : (s.tick e).stack = s.stack := rfl
@[simp] theorem State.tick_dt (s : State) (e : Nat) : (s.tick e).dt = decay s.dt (periods s.dtAcc e) := rfl
@[simp] theorem State.tick_st (s : State) (e : Nat) : (s.tick e).st = decay s.st (periods s.stAcc e) := rfl
@[simp] theorem State.tick_dtAcc (s : State) (e : Nat) : (s.tick e).dtAcc = accAfter s.dtAcc e := rfl
@[simp] theorem State.tick_stAcc (s : State) (e : Nat) : (s.tick e).stAcc = accAfter s.stAcc e := rfl
@[simp] theorem State.tick_key (s : State) (e : Nat) : (s.tick e).key = s.key := rfl
@[simp] theorem State.tick_fb (s : State) (e : Nat) : (s.tick e).fb = s.fb := rfl
@[simp] theorem State.tick_mem (s : State) (e : Nat) : (s.tick e).mem = s.mem := rfl
@[simp] theorem State.tick_halted (s : State) (e : Nat) : (s.tick e).halted = s.halted := rfl
@[simp] theorem State.tick_report (s : State) (e : Nat) : (s.tick e).report = s.report := rfl
@[simp] theorem State.tick_rnd (s : State) (e : Nat) : (s.tick e).rnd = s.rnd := rfl
@[simp] theorem State.tick_pending (s : State) (e : Nat) : (s.tick e).pending = s.pending := rfl
@[simp] theorem State.tick_stepCount (s : State) (e : Nat) : (s.tick e).stepCount = s.stepCount := rfl
@[simp] theorem State.tick_reg (s : State) (e : Nat) (q : Reg) : (s.tick e).reg q = s.reg q := rfl
@[simp] theorem State.tick_byteAt (s : State) (e : Nat) (k : Nat) : (s.tick e).byteAt k = s.byteAt k := rfl
@[simp] theorem State.tick_pixel (s : State) (e : Nat) (row col : Nat) : (s.tick e).pixel row col = s.pixel row col := rfl

/-! ### latch -/

@[simp] theorem State.latch_v (s : State) (inp : StepInput) : (s.latch inp).v = s.v := rfl
@[simp] theorem State.latch_pc (s : State) (inp : StepInput) : (s.latch inp).pc = s.pc := rfl
@[simp] theorem State.latch_i (s : State) (inp : StepInput) : (s.latch inp).i = s.i := rfl
@[simp] theorem State.latch_stack (s : State) (inp : StepInput) : (s.latch inp).stack = s.stack := rfl
@[simp] theorem State.latch_dt (s : State) (inp : StepInput) : (s.latch inp).dt = s.dt := rfl
@[simp] theorem State.latch_st (s : State) (inp : StepInput) : (s.latch inp).st = s.st := rfl
@[simp] theorem State.latch_dtAcc (s : State) (inp : StepInput) : (s.latch inp).dtAcc = s.dtAcc := rfl
@[simp] theorem State.latch_stAcc (s : State) (inp : StepInput) : (s.latch inp).stAcc = s.stAcc := rfl
@[simp] theorem State.latch_key (s : State) (inp : StepInput) : (s.latch inp).key = inp.keyInput := rfl
@[simp] theorem State.latch_fb (s : State) (inp : StepInput) : (s.latch inp).fb = s.fb := rfl
@[simp] theorem State.latch_mem (s : State) (inp : StepInput) : (s.latch inp).mem = s.mem := rfl
@[simp] theorem State.latch_halted (s : State) (inp : StepInput) : (s.latch inp).halted = s.halted := rfl
@[simp] theorem State.latch_report (s : State) (inp : StepInput) : (s.latch inp).report = s.report := rfl
@[simp] theorem State.latch_rnd (s : State) (inp : StepInput) : (s.latch inp).rnd = inp.rnd := rfl
@[simp] theorem State.latch_pending (s : State) (inp : StepInput) : (s.latch inp).pending = s.pending := rfl
@[simp] theorem State.latch_stepCount (s : State) (inp : StepInput) : (s.latch inp).stepCount = s.stepCount := rfl
@[simp] theorem State.latch_reg (s : State) (inp : StepInput) (q : Reg) : (s.latch inp).reg q = s.reg q := rfl
@[simp] theorem State.latch_byteAt (s : State) (inp : StepInput) (k : Nat) : (s.latch inp).byteAt k = s.byteAt k := rfl
@[simp] theorem State.latch_pixel (s : State) (inp : StepInput) (row col : Nat) : (s.latch inp).pixel row col = s.pixel row col := rfl

/-! ### advance -/

@[simp] theorem State.advance_v (s : State) : (s.advance).v = s.v := rfl
@[simp] theorem State.advance_pc (s : State) : (s.advance).pc = s.pc + 2 := rfl
@[simp] theorem State.advance_i (s : State) : (s.advance).i = s.i := rfl
@[simp] theorem State.advance_stack (s : State) : (s.advance).stack = s.stack := rfl
@[simp] theorem State.advance_dt (s : State) : (s.advance).dt = s.dt := rfl
@[simp] theorem State.advance_st (s : State) : (s.advance).st = s.st := rfl
@[simp] theorem State.advance_dtAcc (s : State) : (s.advance).dtAcc = s.dtAcc := rfl
@[simp] theorem State.advance_stAcc (s : State) : (s.advance).stAcc = s.stAcc := rfl
@[simp] theorem State.advance_key (s : State) : (s.advance).key = s.key := rfl
@[simp] theorem State.advance_fb (s : State) : (s.advance).fb = s.fb := rfl
@[simp] theorem State.advance_mem (s : State) : (s.advance).mem = s.mem := rfl
@[simp] theorem State.advance_halted (s : State) : (s.advance).halted = s.halted := rfl
@[simp] theorem State.advance_report (s : State) : (s.advance).report = .ok := rfl
@[simp] theorem State.advance_rnd (s : State) : (s.advance).rnd = s.rnd := rfl
@[simp] theorem State.advance_pending (s : State) : (s.advance).pending = s.pending := rfl
@[simp] theorem State.advance_stepCount (s : State) : (s.advance).stepCount = s.stepCount := rfl
@[simp] theorem State.advance_reg (s : State) (q : Reg) : (s.advance).reg q = s.reg q := rfl
@[simp] theorem State.advance_byteAt (s : State) (k : Nat) : (s.advance).byteAt k = s.byteAt k := rfl
@[simp] theorem State.advance_pixel (s : State) (row col : Nat) : (s.advance).pixel row col = s.pixel row col := rfl

/-! ### takeInput -/

@[simp] theorem State.takeInput_v (s : State) : (s.takeInput).v = s.v := rfl
@[simp] theorem State.takeInput_pc (s : State) : (s.takeInput).pc = s.pc := rfl
@[simp] theorem State.takeInput_i (s : State) : (s.takeInput).i = s.i := rfl
@[simp] theorem State.takeInput_stack (s : State) : (s.takeInput).stack = s.stack := rfl
@[simp] theorem State.takeInput_dt (s : State) : (s.takeInput).dt = s.dt := rfl
@[simp] theorem State.takeInput_st (s : State) : (s.takeInput).st = s.st := rfl
@[simp] theorem State.takeInput_dtAcc (s : State) : (s.takeInput).dtAcc = s.dtAcc := rfl
@[simp] theorem State.takeInput_stAcc (s : State) : (s.takeInput).stAcc = s.stAcc := rfl
@[simp] theorem State.takeInput_key (s : State) : (s.takeInput).key = s.key := rfl
@[simp] theorem State.takeInput_fb (s : State) : (s.takeInput).fb = s.fb := rfl
@[simp] theorem State.takeInput_mem (s : State) : (s.takeInput).mem = s.mem := rfl
@[simp] theorem State.takeInput_halted (s : State) : (s.takeInput).halted = s.halted := rfl
@[simp] theorem State.takeInput_report (s : State) : (s.takeInput).report = s.report := rfl
@[simp] theorem State.takeInput_rnd (s : State) : (s.takeInput).rnd = s.rnd := rfl
@[simp] theorem State.takeInput_pending (s : State) : (s.takeInput).pending = s.pending.tail := rfl
@[simp] theorem State.takeInput_stepCount (s : State) : (s.takeInput).stepCount = s.stepCount + 1 := rfl
@[simp] theorem State.takeInput_reg (s : State) (q : Reg) : (s.takeInput).reg q = s.reg q := rfl
@[simp] theorem State.takeInput_byteAt (s : State) (k : Nat) : (s.takeInput).byteAt k = s.byteAt k := rfl
@[simp] theorem State.takeInput_pixel (s : State) (row col : Nat) : (s.takeInput).pixel row col = s.pixel row col := rfl

end Sys2Proof.Machine
end

