-- ==== Sys2Proof/Laws/Display.lean ====
section
/-! SUPPORT. The framebuffer: what each operation does to one pixel (47_display.md). -/

namespace Sys2Proof.Machine

/-- A pixel of a cleared framebuffer (R204). -/
@[simp] theorem Display.pixel_clear (r c : Nat) : Display.pixel Display.clear r c = false := by
  unfold Display.pixel Display.clear
  split
  · simp
  · rfl

/-- A pixel outside the grid reads as false. -/
theorem Display.pixel_outside (d : Display) {r c : Nat} (h : ¬ (r < 32 ∧ c < 64)) : Display.pixel d r c = false :=
  dif_neg h

/-- A pixel of the grid. -/
theorem Display.pixel_inside (d : Display) {r c : Nat} (hr : r < 32) (hc : c < 64) :
    Display.pixel d r c = (d[r]'hr)[c]'hc := dif_pos ⟨hr, hc⟩

/-- A flip inside the grid sets one pixel of one row. -/
theorem Display.flip_inside (d : Display) {r c : Nat} (hr : r < 32) (hc : c < 64) :
    Display.flip d r c = d.set r ((d[r]'hr).set c (!(d[r]'hr)[c]'hc) hc) hr := dif_pos ⟨hr, hc⟩

/-- Flipping a pixel of the grid inverts it and leaves every other pixel. -/
theorem Display.pixel_flip (d : Display) (r c r' c' : Nat) :
    Display.pixel (Display.flip d r c) r' c' =
      if r' = r ∧ c' = c ∧ r < 32 ∧ c < 64 then !Display.pixel d r c else Display.pixel d r' c' := by
  by_cases h : r < 32 ∧ c < 64
  · obtain ⟨hr, hc⟩ := h
    by_cases h' : r' < 32 ∧ c' < 64
    · obtain ⟨hr', hc'⟩ := h'
      rw [Display.flip_inside d hr hc, Display.pixel_inside _ hr' hc', Display.pixel_inside _ hr hc,
        Display.pixel_inside _ hr' hc']
      simp only [Vector.getElem_set]
      by_cases e : r = r'
      · subst e
        by_cases e' : c = c'
        · subst e'; simp [hr, hc]
        · simp [e', show ¬ c' = c from fun x => e' x.symm]
      · simp [e, show ¬ r' = r from fun x => e x.symm]
    · have hn : ¬ (r' = r ∧ c' = c ∧ r < 32 ∧ c < 64) := by
        rintro ⟨rfl, rfl, a, b⟩; exact h' ⟨a, b⟩
      rw [if_neg hn, Display.pixel_outside _ h', Display.pixel_outside _ h']
  · have hn : ¬ (r' = r ∧ c' = c ∧ r < 32 ∧ c < 64) := fun e => h e.2.2
    rw [if_neg hn, Display.flip, dif_neg h]

/-- The bit of a sprite row over column `c`, when the row is drawn from column `x0`. -/
def rowBit (x0 : Nat) (b : Byte) (c : Nat) : Bool :=
  decide (x0 ≤ c ∧ c < x0 + 8 ∧ c < 64) && b.getLsbD (7 - (c - x0))

/-- Drawing the first `k` columns of a row. -/
theorem Display.pixel_foldl_flip (b : Byte) (r x0 : Nat) (d : Display) (r' c' : Nat) : ∀ k, x0 + k ≤ 64 →
    Display.pixel ((List.range k).foldl (fun d j => if b.getLsbD (7 - j) then Display.flip d r (x0 + j) else d) d) r' c' =
      (Display.pixel d r' c' ^^
        (decide (r' = r ∧ r < 32 ∧ x0 ≤ c' ∧ c' < x0 + k) && b.getLsbD (7 - (c' - x0)))) := by
  intro k
  induction k with
  | zero =>
    intro _
    have h : ¬ (r' = r ∧ r < 32 ∧ x0 ≤ c' ∧ c' < x0 + 0) := by omega
    rw [decide_eq_false h]; simp
  | succ k ih =>
    intro hk
    have ih := ih (by omega)
    rw [List.range_succ, List.foldl_append, List.foldl_cons, List.foldl_nil]
    by_cases hb : b.getLsbD (7 - k) = true
    · rw [if_pos hb, Display.pixel_flip]
      by_cases hp : r' = r ∧ c' = x0 + k ∧ r < 32 ∧ x0 + k < 64
      · obtain ⟨rfl, rfl, h1, h2⟩ := hp
        rw [if_pos ⟨rfl, rfl, h1, h2⟩, ih]
        simp [h1, hb]
      · rw [if_neg hp, ih]
        have e : (r' = r ∧ r < 32 ∧ x0 ≤ c' ∧ c' < x0 + (k + 1)) ↔ (r' = r ∧ r < 32 ∧ x0 ≤ c' ∧ c' < x0 + k) := by
          omega
        simp only [e]
    · rw [if_neg hb, ih]
      by_cases hc : c' = x0 + k
      · subst hc; simp [hb]
      · have e : (r' = r ∧ r < 32 ∧ x0 ≤ c' ∧ c' < x0 + (k + 1)) ↔ (r' = r ∧ r < 32 ∧ x0 ≤ c' ∧ c' < x0 + k) := by
          omega
        simp only [e]

/-- One sprite row: the pixels of its row under a 1 bit are inverted, all others stay (R203). -/
theorem Display.pixel_xorRow (r x0 : Nat) (b : Byte) (d : Display) (r' c' : Nat) (hr : r < 32) (hx : x0 < 64) :
    Display.pixel (Display.xorRow r x0 b d) r' c' =
      (Display.pixel d r' c' ^^ (decide (r' = r) && rowBit x0 b c')) := by
  unfold Display.xorRow
  rw [Display.pixel_foldl_flip _ _ _ _ _ _ _ (by simp only [spriteCols, Config.displayW]; omega)]
  have e : decide (r' = r ∧ r < 32 ∧ x0 ≤ c' ∧ c' < x0 + spriteCols x0) =
      (decide (r' = r) && decide (x0 ≤ c' ∧ c' < x0 + 8 ∧ c' < 64)) := by
    rw [← Bool.decide_and]
    apply decide_eq_decide.mpr
    simp only [spriteCols, Config.displayW]; omega
  rw [e, rowBit, Bool.and_assoc]

/-- A sprite: row `k` of it lies over row `r + k` of the display, and nothing is drawn below the bottom edge (R203). -/
theorem Display.pixel_applySprite (x0 : Nat) (hx : x0 < 64) (bs : List Byte) : ∀ (r : Nat) (d : Display) (r' c' : Nat),
    Display.pixel (Display.applySprite x0 r bs d) r' c' =
      (Display.pixel d r' c' ^^
        if h : r ≤ r' ∧ r' < r + bs.length ∧ r' < 32 then rowBit x0 (bs[r' - r]'(by omega)) c' else false) := by
  induction bs with
  | nil =>
    intro r d r' c'
    rw [dif_neg (by simp; omega)]; simp [Display.applySprite]
  | cons b bs ih =>
    intro r d r' c'
    simp only [List.length_cons]
    by_cases hr : r ≥ Config.displayH
    · have h : ¬ (r ≤ r' ∧ r' < r + (bs.length + 1) ∧ r' < 32) := by simp only [Config.displayH] at hr; omega
      rw [dif_neg h, Display.applySprite, if_pos hr]; simp
    · rw [Display.applySprite, if_neg hr, ih, Display.pixel_xorRow _ _ _ _ _ _ (by simpa using hr) hx]
      by_cases h0 : r' = r
      · subst h0
        have h1 : ¬ (r' + 1 ≤ r' ∧ r' < r' + 1 + bs.length ∧ r' < 32) := by omega
        have h2 : r' ≤ r' ∧ r' < r' + (bs.length + 1) ∧ r' < 32 := by simp only [Config.displayH] at hr; omega
        rw [dif_neg h1, dif_pos h2]; simp
      · by_cases h1 : r + 1 ≤ r' ∧ r' < r + 1 + bs.length ∧ r' < 32
        · have h2 : r ≤ r' ∧ r' < r + (bs.length + 1) ∧ r' < 32 := by omega
          rw [dif_pos h1, dif_pos h2]
          have e : r' - r = (r' - (r + 1)) + 1 := by omega
          simp only [e, List.getElem_cons_succ]; simp [h0]
        · have h2 : ¬ (r ≤ r' ∧ r' < r + (bs.length + 1) ∧ r' < 32) := by omega
          rw [dif_neg h1, dif_neg h2]; simp [h0]

/-- Two framebuffers with the same pixels are the same. -/
theorem Display.ext_pixel {d e : Display} (h : ∀ r c, Display.pixel d r c = Display.pixel e r c) : d = e := by
  apply Vector.ext; intro r hr
  apply Vector.ext; intro c hc
  have := h r c
  rwa [Display.pixel, Display.pixel, dif_pos ⟨hr, hc⟩, dif_pos ⟨hr, hc⟩] at this

end Sys2Proof.Machine
end

