-- ==== Sys2Proof/Laws/HostOps.lean ====
section
/-! SUPPORT. What the host's reset and `get_state` do to each piece of state, true by `rfl`: with these no proof unfolds
`State.hostReset`, `State.view` or these two transactions. -/

namespace Sys2Proof.Machine

/-! ### The two transactions that always complete -/

@[simp] theorem transact_reset (wreck s : State) : transact wreck .reset s = (s.hostReset, .done) := rfl
@[simp] theorem transact_getState (wreck s : State) : transact wreck .getState s = (s, .view s.view) := rfl

/-! ### The reset operation: the reset values, and what the host has lined up -/

@[simp] theorem State.hostReset_v (s : State) : s.hostReset.v = State.reset.v := rfl
@[simp] theorem State.hostReset_pc (s : State) : s.hostReset.pc = State.reset.pc := rfl
@[simp] theorem State.hostReset_i (s : State) : s.hostReset.i = State.reset.i := rfl
@[simp] theorem State.hostReset_stack (s : State) : s.hostReset.stack = State.reset.stack := rfl
@[simp] theorem State.hostReset_dt (s : State) : s.hostReset.dt = State.reset.dt := rfl
@[simp] theorem State.hostReset_st (s : State) : s.hostReset.st = State.reset.st := rfl
@[simp] theorem State.hostReset_dtAcc (s : State) : s.hostReset.dtAcc = State.reset.dtAcc := rfl
@[simp] theorem State.hostReset_stAcc (s : State) : s.hostReset.stAcc = State.reset.stAcc := rfl
@[simp] theorem State.hostReset_key (s : State) : s.hostReset.key = State.reset.key := rfl
@[simp] theorem State.hostReset_fb (s : State) : s.hostReset.fb = State.reset.fb := rfl
@[simp] theorem State.hostReset_mem (s : State) : s.hostReset.mem = State.reset.mem := rfl
@[simp] theorem State.hostReset_halted (s : State) : s.hostReset.halted = State.reset.halted := rfl
@[simp] theorem State.hostReset_report (s : State) : s.hostReset.report = State.reset.report := rfl
@[simp] theorem State.hostReset_rnd (s : State) : s.hostReset.rnd = State.reset.rnd := rfl
@[simp] theorem State.hostReset_pending (s : State) : s.hostReset.pending = s.pending := rfl
@[simp] theorem State.hostReset_stepCount (s : State) : s.hostReset.stepCount = s.stepCount := rfl
@[simp] theorem State.hostReset_reg (s : State) (q : Reg) : s.hostReset.reg q = State.reset.reg q := rfl
@[simp] theorem State.hostReset_byteAt (s : State) (k : Nat) : s.hostReset.byteAt k = State.reset.byteAt k := rfl
@[simp] theorem State.hostReset_pixel (s : State) (r c : Nat) : s.hostReset.pixel r c = State.reset.pixel r c := rfl

/-! ### The view of `get_state` -/

@[simp] theorem State.view_v (s : State) : s.view.v = s.v := rfl
@[simp] theorem State.view_pc (s : State) : s.view.pc = s.pc := rfl
@[simp] theorem State.view_i (s : State) : s.view.i = s.i := rfl
@[simp] theorem State.view_stack (s : State) : s.view.stack = s.stack := rfl
@[simp] theorem State.view_dt (s : State) : s.view.dt = s.dt := rfl
@[simp] theorem State.view_st (s : State) : s.view.st = s.st := rfl
@[simp] theorem State.view_key (s : State) : s.view.key = s.key := rfl
@[simp] theorem State.view_fb (s : State) : s.view.fb = s.fb := rfl
@[simp] theorem State.view_mem (s : State) : s.view.mem = s.mem := rfl
@[simp] theorem State.view_halted (s : State) : s.view.halted = s.halted := rfl

end Sys2Proof.Machine
end

