-- ==== Sys2Proof/Laws/Memory.lean ====
section
/-! SUPPORT. Memory: read after write, the canonical form, and what a run of reads or writes does. The read laws hold of
every list, canonical or not. -/

namespace Sys2Proof.Machine

theorem Memory.byteAt_erase (m : Memory) (a k : Nat) :
    Memory.byteAt k (Memory.erase a m) = if k = a then Config.resetByte else Memory.byteAt k m := by
  induction m with
  | nil => simp [Memory.erase, Memory.byteAt]
  | cons c rest ih =>
    unfold Memory.erase at ih ⊢
    rw [List.filter_cons]
    by_cases hc : c.1 = a
    · have hf : ¬ (c.1 != a) = true := by simp [hc]
      rw [if_neg hf, ih]
      by_cases hk : k = a
      · rw [if_pos hk, if_pos hk]
      · have h : ¬ c.1 = k := fun e => hk (e.symm.trans hc)
        rw [if_neg hk, if_neg hk, Memory.byteAt, if_neg h]
    · have ht : (c.1 != a) = true := by simp [hc]
      rw [if_pos ht, Memory.byteAt, Memory.byteAt, ih]
      by_cases hk : c.1 = k
      · have h : ¬ k = a := fun e => hc (hk.trans e)
        rw [if_pos hk, if_neg h, if_pos hk]
      · rw [if_neg hk, if_neg hk]

theorem Memory.byteAt_insert (m : Memory) (a k : Nat) (b : Byte) (h : ∀ c ∈ m, c.1 ≠ a) :
    Memory.byteAt k (Memory.insert a b m) = if k = a then b else Memory.byteAt k m := by
  have front : ∀ m' : Memory, Memory.byteAt k ((a, b) :: m') = if k = a then b else Memory.byteAt k m' := by
    intro m'
    rw [Memory.byteAt]
    by_cases hk : k = a
    · rw [if_pos hk.symm, if_pos hk]
    · rw [if_neg (fun e => hk (Eq.symm e)), if_neg hk]
  induction m with
  | nil => exact front []
  | cons c rest ih =>
    have hc : c.1 ≠ a := h c (by simp)
    have hr := ih fun d hd => h d (by simp [hd])
    unfold Memory.insert
    split
    · rw [Memory.byteAt, Memory.byteAt, hr]
      by_cases hk : c.1 = k
      · have hn : ¬ k = a := fun e => hc (hk.trans e)
        rw [if_pos hk, if_neg hn, if_pos hk]
      · rw [if_neg hk, if_neg hk]
    · exact front _

theorem Memory.erase_free (m : Memory) (a : Nat) : ∀ c ∈ Memory.erase a m, c.1 ≠ a := by
  intro c hc
  simpa using (List.mem_filter.mp hc).2

/-- Read after write, one byte: the written address holds the byte, every other address what it held. -/
theorem Memory.byteAt_put (m : Memory) (a k : Nat) (b : Byte) :
    Memory.byteAt k (Memory.put a b m) = if k = a then b else Memory.byteAt k m := by
  unfold Memory.put
  split
  · rename_i hb; rw [Memory.byteAt_erase, hb]
  · rw [Memory.byteAt_insert _ _ _ _ (Memory.erase_free m a), Memory.byteAt_erase]
    split <;> rfl

/-- Read after a run of writes. -/
theorem Memory.byteAt_putRun (bs : List Byte) :
    ∀ (a k : Nat) (m : Memory), Memory.byteAt k (Memory.putRun a bs m) =
      if h : a ≤ k ∧ k < a + bs.length then bs[k - a]'(by omega) else Memory.byteAt k m := by
  induction bs with
  | nil => intro a k m; rw [dif_neg (by simp)]; rfl
  | cons b bs ih =>
    intro a k m
    show Memory.byteAt k (Memory.putRun (a + 1) bs (Memory.put a b m)) = _
    rw [ih, Memory.byteAt_put]
    simp only [List.length_cons]
    by_cases h1 : a + 1 ≤ k ∧ k < a + 1 + bs.length
    · have h2 : a ≤ k ∧ k < a + (bs.length + 1) := by omega
      rw [dif_pos h1, dif_pos h2]
      have e : k - a = (k - (a + 1)) + 1 := by omega
      simp only [e, List.getElem_cons_succ]
    · rw [dif_neg h1]
      by_cases h3 : k = a
      · have h2 : a ≤ k ∧ k < a + (bs.length + 1) := by omega
        rw [if_pos h3, dif_pos h2]
        simp only [h3, Nat.sub_self, List.getElem_cons_zero]
      · have h2 : ¬ (a ≤ k ∧ k < a + (bs.length + 1)) := by omega
        rw [if_neg h3, dif_neg h2]

/-! ### The canonical form -/

/-- The canonical form from an address on, for a list with a head. -/
theorem Memory.wfFrom_cons (lo : Nat) (c : Host.Cell) (m : Memory) :
    Memory.wfFrom lo (c :: m) = true ↔
      lo ≤ c.1 ∧ c.1 < Config.memSize ∧ c.2 ≠ Config.resetByte ∧ Memory.wfFrom (c.1 + 1) m = true := by
  simp [Memory.wfFrom, and_assoc]

theorem Memory.wfFrom_weaken (m : Memory) {lo lo' : Nat} (h : lo' ≤ lo) (hm : Memory.wfFrom lo m = true) :
    Memory.wfFrom lo' m = true := by
  cases m with
  | nil => rfl
  | cons c rest =>
    rw [Memory.wfFrom_cons] at hm ⊢
    exact ⟨h.trans hm.1, hm.2⟩

theorem Memory.wfFrom_erase (m : Memory) (a : Nat) : ∀ lo, Memory.wfFrom lo m = true →
    Memory.wfFrom lo (Memory.erase a m) = true := by
  induction m with
  | nil => intro lo _; rfl
  | cons c rest ih =>
    intro lo hm
    rw [Memory.wfFrom_cons] at hm
    have hr := ih (c.1 + 1) hm.2.2.2
    unfold Memory.erase at hr ⊢
    rw [List.filter_cons]
    split
    · rw [Memory.wfFrom_cons]; exact ⟨hm.1, hm.2.1, hm.2.2.1, hr⟩
    · exact Memory.wfFrom_weaken _ (by omega) hr

theorem Memory.wfFrom_insert (m : Memory) (a : Nat) (b : Byte) (ha : a < Config.memSize) (hb : b ≠ Config.resetByte) :
    ∀ lo, lo ≤ a → (∀ c ∈ m, c.1 ≠ a) → Memory.wfFrom lo m = true → Memory.wfFrom lo (Memory.insert a b m) = true := by
  induction m with
  | nil => intro lo hlo _ _; exact (Memory.wfFrom_cons ..).mpr ⟨hlo, ha, hb, rfl⟩
  | cons c rest ih =>
    intro lo hlo hfree hm
    have hc : c.1 ≠ a := hfree c (by simp)
    rw [Memory.wfFrom_cons] at hm
    unfold Memory.insert
    split
    · rename_i hlt
      rw [Memory.wfFrom_cons]
      exact ⟨hm.1, hm.2.1, hm.2.2.1, ih _ (by omega) (fun d hd => hfree d (by simp [hd])) hm.2.2.2⟩
    · rw [Memory.wfFrom_cons]
      refine ⟨hlo, ha, hb, ?_⟩
      rw [Memory.wfFrom_cons]
      exact ⟨by show a + 1 ≤ c.1; omega, hm.2.1, hm.2.2.1, hm.2.2.2⟩

/-- A write inside memory keeps the canonical form. -/
theorem Memory.wf_put (m : Memory) (a : Nat) (b : Byte) (ha : a < Config.memSize) (hm : Memory.wf m = true) :
    Memory.wf (Memory.put a b m) = true := by
  unfold Memory.put
  have he := Memory.wfFrom_erase m a 0 hm
  split
  · exact he
  · rename_i hb
    exact Memory.wfFrom_insert _ a b ha hb 0 (by omega) (Memory.erase_free m a) he

/-- A run of writes inside memory keeps the canonical form. -/
theorem Memory.wf_putRun (bs : List Byte) : ∀ (a : Nat) (m : Memory), a + bs.length ≤ Config.memSize →
    Memory.wf m = true → Memory.wf (Memory.putRun a bs m) = true := by
  induction bs with
  | nil => intro a m _ hm; exact hm
  | cons b bs ih =>
    intro a m h hm
    simp only [List.length_cons] at h
    exact ih (a + 1) _ (by omega) (Memory.wf_put m a b (by omega) hm)

/-- A canonical list reads as the reset byte below where it begins. -/
theorem Memory.byteAt_below (m : Memory) : ∀ lo k, Memory.wfFrom lo m = true → k < lo →
    Memory.byteAt k m = Config.resetByte := by
  induction m with
  | nil => intro lo k _ _; rfl
  | cons c rest ih =>
    intro lo k hm hk
    rw [Memory.wfFrom_cons] at hm
    have h : ¬ c.1 = k := by omega
    simp only [Memory.byteAt, if_neg h]
    exact ih (c.1 + 1) k hm.2.2.2 (by omega)

/-! ### The machine's accesses -/

/-- A byte read: the byte inside memory, fatal past its end (R53). -/
theorem State.memRead_spec (s : State) (a : Nat) :
    (a < Config.memSize ∧ s.memRead a = .ok (s.byteAt a)) ∨
    (Config.memSize ≤ a ∧ s.memRead a = .error (.memReadOutOfBounds a)) := by
  unfold State.memRead
  by_cases h : a < Config.memSize
  · exact .inl ⟨h, if_pos h⟩
  · exact .inr ⟨by omega, if_neg h⟩

/-- A byte write: stored inside memory, fatal past its end (R52). -/
theorem State.memWrite_spec (s : State) (a : Nat) (b : Byte) :
    (a < Config.memSize ∧ s.memWrite a b = .ok (s.setMem (Memory.put a b s.mem))) ∨
    (Config.memSize ≤ a ∧ s.memWrite a b = .error (.memWriteOutOfBounds a)) := by
  unfold State.memWrite
  by_cases h : a < Config.memSize
  · exact .inl ⟨h, if_pos h⟩
  · exact .inr ⟨by omega, if_neg h⟩

/-- A run of reads inside memory gives its bytes. -/
theorem State.readRun_ok (s : State) (n : Nat) : ∀ a, a + n ≤ Config.memSize ∨ n = 0 →
    s.readRun a n = .ok ((List.range' a n).map s.byteAt) := by
  induction n with
  | zero => intro a _; rfl
  | succ n ih =>
    intro a h
    have h' : a + (n + 1) ≤ Config.memSize := by omega
    have hr : s.memRead a = .ok (s.byteAt a) := if_pos (by omega)
    simp only [State.readRun, hr, ih (a + 1) (by omega), List.range'_succ, List.map_cons]

/-- A run of reads that leaves memory stops at the first address past it (R53, R228). -/
theorem State.readRun_error (s : State) (n : Nat) : ∀ a, n ≠ 0 → Config.memSize < a + n →
    s.readRun a n = .error (.memReadOutOfBounds (max a Config.memSize)) := by
  induction n with
  | zero => intro a h _; exact absurd rfl h
  | succ n ih =>
    intro a _ h
    by_cases ha : a < Config.memSize
    · have hr : s.memRead a = .ok (s.byteAt a) := if_pos ha
      have e : max (a + 1) Config.memSize = max a Config.memSize := by omega
      simp only [State.readRun, hr, ih (a + 1) (by omega) (by omega), e]
    · have hr : s.memRead a = .error (.memReadOutOfBounds a) := if_neg ha
      have e : max a Config.memSize = a := by omega
      simp only [State.readRun, hr, e]

/-- A run of writes inside memory stores the bytes and changes memory alone. -/
theorem State.writeRun_ok (bs : List Byte) : ∀ (a : Nat) (s : State), a + bs.length ≤ Config.memSize ∨ bs = [] →
    State.writeRun a bs s = .ok (s.setMem (Memory.putRun a bs s.mem)) := by
  induction bs with
  | nil => intro a s _; rfl
  | cons b bs ih =>
    intro a s h
    have h' : a + (bs.length + 1) ≤ Config.memSize := by simpa using h
    have hw : s.memWrite a b = .ok (s.setMem (Memory.put a b s.mem)) := if_pos (by omega)
    simp only [State.writeRun, hw, ih (a + 1) _ (.inl (by omega))]
    rfl

/-- A run of writes that leaves memory stops at the first address past it (R52, R228). -/
theorem State.writeRun_error (bs : List Byte) : ∀ (a : Nat) (s : State), bs ≠ [] → Config.memSize < a + bs.length →
    State.writeRun a bs s = .error (.memWriteOutOfBounds (max a Config.memSize)) := by
  induction bs with
  | nil => intro a s h _; exact absurd rfl h
  | cons b bs ih =>
    intro a s _ h
    simp only [List.length_cons] at h
    by_cases ha : a < Config.memSize
    · have hw : s.memWrite a b = .ok (s.setMem (Memory.put a b s.mem)) := if_pos ha
      have hne : bs ≠ [] := by rintro rfl; simp at h; omega
      have e : max (a + 1) Config.memSize = max a Config.memSize := by omega
      simp only [State.writeRun, hw, ih (a + 1) _ hne (by omega), e]
    · have hw : s.memWrite a b = .error (.memWriteOutOfBounds a) := if_neg ha
      have e : max a Config.memSize = a := by omega
      simp only [State.writeRun, hw, e]

/-- Writing a memory byte by byte, read through the state. -/
theorem State.byteAt_setMem (s : State) (m : Memory) (k : Nat) : (s.setMem m).byteAt k = Memory.byteAt k m := rfl

/-- Fetch: the big-endian word inside memory, fatal at the first address past it (R71). -/
theorem State.fetch_spec (s : State) :
    (s.pc.toNat + 1 < Config.memSize ∧
      s.fetch = .ok (wordOfBytes (s.byteAt s.pc.toNat) (s.byteAt (s.pc.toNat + 1)))) ∨
    (Config.memSize ≤ s.pc.toNat + 1 ∧ s.fetch = .error (.memReadOutOfBounds (max s.pc.toNat Config.memSize))) := by
  unfold State.fetch State.memRead
  by_cases h1 : s.pc.toNat < Config.memSize
  · by_cases h2 : s.pc.toNat + 1 < Config.memSize
    · exact .inl ⟨h2, by rw [if_pos h1, if_pos h2]⟩
    · have e : max s.pc.toNat Config.memSize = s.pc.toNat + 1 := by omega
      exact .inr ⟨by omega, by rw [if_pos h1, if_neg h2, e]⟩
  · have e : max s.pc.toNat Config.memSize = s.pc.toNat := by omega
    exact .inr ⟨by omega, by rw [if_neg h1, e]⟩

end Sys2Proof.Machine
end

