-- ==== Sys2Proof/Laws/Registers.lean ====
section
/-! SUPPORT. General registers: what a read gives after each kind of write. -/

namespace Sys2Proof.Machine

/-- Read after write, one register. -/
theorem State.reg_setReg (s : State) (r q : Reg) (b : Byte) :
    (s.setReg r b).reg q = if q = r then b else s.reg q := by
  have key : ((s.v.set r.val b r.isLt)[q.val]'q.isLt) = if r.val = q.val then b else s.v[q.val] :=
    Vector.getElem_set r.isLt q.isLt
  show ((s.v.set r.val b r.isLt)[q.val]'q.isLt) = if q = r then b else s.v[q.val]
  rw [key]
  by_cases h : q = r
  · simp [h]
  · have h' : ¬ r.val = q.val := fun e => h (Fin.ext e.symm)
    simp [h, h']

@[simp] theorem State.reg_setReg_same (s : State) (r : Reg) (b : Byte) : (s.setReg r b).reg r = b := by
  simp [State.reg_setReg]

theorem State.reg_setReg_other (s : State) {r q : Reg} (b : Byte) (h : q ≠ r) : (s.setReg r b).reg q = s.reg q := by
  simp [State.reg_setReg, h]

/-- A flagged result: VF holds the flag, the destination the result unless it is VF, every other register as before. -/
theorem State.reg_setRegAndFlag (s : State) (x q : Reg) (result : Byte) (flag : Bool) :
    (s.setRegAndFlag x result flag).reg q =
      if q = VF then (if flag then 1 else 0) else if q = x then result else s.reg q := by
  unfold State.setRegAndFlag
  rw [State.reg_setReg, State.reg_setReg]

/-- A flagged result changes the register file and nothing else. -/
theorem State.setRegAndFlag_rest (s : State) (x : Reg) (result : Byte) (flag : Bool) :
    ∃ v, s.setRegAndFlag x result flag = { s with v := v } := ⟨_, rfl⟩

/-- Writing registers from `k` on: register `q` takes the byte at its place in the list, the others stay. -/
theorem State.reg_setRegsFrom (bs : List Byte) :
    ∀ (k : Nat) (s : State) (q : Reg), k + bs.length ≤ 16 →
      (State.setRegsFrom k bs s).reg q =
        if h : k ≤ q.val ∧ q.val < k + bs.length then bs[q.val - k]'(by omega) else s.reg q := by
  induction bs with
  | nil =>
    intro k s q _
    have h : ¬ (k ≤ q.val ∧ q.val < k + ([] : List Byte).length) := by simp
    rw [dif_neg h]; rfl
  | cons b bs ih =>
    intro k s q hk
    simp only [List.length_cons] at hk
    show (State.setRegsFrom (k + 1) bs (s.setReg (Fin.ofNat 16 k) b)).reg q = _
    rw [ih (k + 1) _ q (by omega), State.reg_setReg]
    have hkv : (Fin.ofNat 16 k).val = k := Nat.mod_eq_of_lt (by omega)
    simp only [List.length_cons]
    by_cases h1 : k + 1 ≤ q.val ∧ q.val < k + 1 + bs.length
    · have h2 : k ≤ q.val ∧ q.val < k + (bs.length + 1) := by omega
      rw [dif_pos h1, dif_pos h2]
      have e : q.val - k = (q.val - (k + 1)) + 1 := by omega
      simp only [e, List.getElem_cons_succ]
    · rw [dif_neg h1]
      by_cases h3 : q = Fin.ofNat 16 k
      · have hq : q.val = k := by rw [h3, hkv]
        have h2 : k ≤ q.val ∧ q.val < k + (bs.length + 1) := by omega
        rw [if_pos h3, dif_pos h2]
        simp only [hq, Nat.sub_self, List.getElem_cons_zero]
      · have hq : q.val ≠ k := fun e => h3 (Fin.ext (by rw [hkv, e]))
        have h2 : ¬ (k ≤ q.val ∧ q.val < k + (bs.length + 1)) := by omega
        rw [if_neg h3, dif_neg h2]

/-- Writing registers changes the register file and nothing else. -/
theorem State.setRegsFrom_rest (bs : List Byte) :
    ∀ (k : Nat) (s : State), ∃ v, State.setRegsFrom k bs s = { s with v := v } := by
  induction bs with
  | nil => exact fun k s => ⟨s.v, rfl⟩
  | cons b bs ih => exact fun k s => ih (k + 1) _

/-- `V[0], …, V[x]` are x + 1 bytes … -/
@[simp] theorem State.regsUpTo_length (s : State) (x : Reg) : (s.regsUpTo x).length = x.val + 1 := by
  have := x.isLt
  simp [State.regsUpTo]

/-- … and the k-th of them is V[k]. -/
theorem State.regsUpTo_getElem (s : State) (x : Reg) (k : Nat) (h : k < (s.regsUpTo x).length) :
    (s.regsUpTo x)[k] = s.reg ⟨k, by simp at h; omega⟩ := by
  simp [State.regsUpTo, State.reg]

end Sys2Proof.Machine
end

