-- ==== Sys2Proof/Laws/Operands.lean ====
section
/-! SUPPORT. The operand forms as numbers, and the two instructions that read a run of bytes. -/

namespace Sys2Proof.Machine

/-- A fetched word as a number: the high byte counts 256 (30_encoding.md R71). -/
theorem wordOfBytes_toNat (hi lo : Byte) : (wordOfBytes hi lo).toNat = 256 * hi.toNat + lo.toNat := by
  have h1 := hi.isLt
  have h2 := lo.isLt
  have e1 : (hi.setWidth 16 <<< 8 : Word).toNat = hi.toNat <<< 8 := by
    rw [BitVec.toNat_shiftLeft, BitVec.toNat_setWidth, Nat.shiftLeft_eq, Nat.shiftLeft_eq]
    omega
  have e2 : (lo.setWidth 16 : Word).toNat = lo.toNat := by
    rw [BitVec.toNat_setWidth, Nat.mod_eq_of_lt (by omega)]
  rw [wordOfBytes, BitVec.toNat_or, e1, e2, ← Nat.shiftLeft_add_eq_or_of_lt (i := 8) h2, Nat.shiftLeft_eq]
  omega

/-- The key index is the low nibble as a number (45_keys_timers.md). -/
theorem keyIndex_eq (b : Byte) : keyIndex b = b.toNat % 16 := by
  unfold keyIndex
  rw [BitVec.toNat_and]
  exact Nat.and_two_pow_sub_one_eq_mod b.toNat 4

theorem anchorCol_lt (b : Byte) : anchorCol b < 64 := Nat.mod_lt _ (by decide)

theorem anchorRow_lt (b : Byte) : anchorRow b < 32 := Nat.mod_lt _ (by decide)

/-- The address of a glyph as a number: it never wraps (46_font_bcd_block.md R190). -/
theorem glyphAddr_toNat (b : Byte) : (glyphAddr b).toNat = 0x50 + 5 * b.toNat := by
  have := b.isLt
  simp only [glyphAddr, Config.fontBase, Config.fontGlyphBytes, BitVec.toNat_ofNat]
  omega

theorem zext12_toNat (nnn : BitVec 12) : (zext12 nnn).toNat = nnn.toNat := by
  have := nnn.isLt
  rw [zext12, BitVec.toNat_setWidth]; omega

theorem zext8_toNat (b : Byte) : (zext8 b).toNat = b.toNat := by
  have := b.isLt
  rw [zext8, BitVec.toNat_setWidth]; omega

/-- A draw whose bytes lie inside memory. -/
theorem execDrw_inside (x y : Reg) (n : BitVec 4) (s : State) (h : s.i.toNat + n.toNat ≤ Config.memSize ∨ n.toNat = 0) :
    execDrw x y n s = .next (s.setFb (Display.applySprite (anchorCol (s.reg x)) (anchorRow (s.reg y))
      ((List.range' s.i.toNat n.toNat).map s.byteAt) s.fb)) := by
  unfold execDrw
  rw [State.readRun_ok _ _ _ h]

/-- A block load whose bytes lie inside memory. -/
theorem execLoadRegs_inside (x : Reg) (s : State) (h : s.i.toNat + (x.val + 1) ≤ Config.memSize) :
    execLoadRegs x s = .next (State.setRegsFrom 0 ((List.range' s.i.toNat (x.val + 1)).map s.byteAt) s) := by
  unfold execLoadRegs
  rw [State.readRun_ok _ _ _ (.inl h)]

end Sys2Proof.Machine
end

