-- ==== Sys2Proof/Laws/PerInstr.lean ====
section
/-! SUPPORT. Statements for all instructions, one lemma per constructor. `RowMatch`: the word the encoder gives is recognised
by a row of the table of 30_encoding.md R87, and that row builds the instruction from it. -/

-- The theorems of this file are checked one after another, so that the compile needs few threads.
set_option Elab.async false

namespace Sys2Proof.Laws

/-- Some row of R87 recognises the instruction's word and gives the instruction back. -/
def RowMatch.Statement (i : Instr) : Prop :=
  ∃ r ∈ opcodeTable, r.recognises (encode i) = true ∧ r.build (encode i) = i

/-- Mask F000 on a word of format NNN. -/
theorem formNNN_and (op : BitVec 4) (nnn : BitVec 12) : formNNN op nnn &&& 0xF000 = nibbleAt 12 op := by
  rw [and_F000, formNNN_op]

/-- Mask F000 on a word of format XNN. -/
theorem formXNN_and (op : BitVec 4) (x : Reg) (nn : Byte) : formXNN op x nn &&& 0xF000 = nibbleAt 12 op := by
  rw [and_F000, formXNN_op]

/-- Mask F0FF on a word of format X. -/
theorem formX_and (op : BitVec 4) (x : Reg) (nn : Byte) :
    formXNN op x nn &&& 0xF0FF = nibbleAt 12 op ||| nn.setWidth 16 := by
  have e : (formXNN op x nn).extractLsb' 0 8 = nn := fieldNN_formXNN op x nn
  rw [and_F0FF, formXNN_op, e]

/-- Mask F00F on a word of format XY. -/
theorem formXY_and (op : BitVec 4) (x y : Reg) (n : BitVec 4) :
    formXYN op x y n &&& 0xF00F = nibbleAt 12 op ||| nibbleAt 0 n := by
  have e : (formXYN op x y n).extractLsb' 0 4 = n := fieldN_formXYN op x y n
  rw [and_F00F, formXYN_op, e]

/-- Mask F000 on a word of format XYN. -/
theorem formXYN_and (op : BitVec 4) (x y : Reg) (n : BitVec 4) : formXYN op x y n &&& 0xF000 = nibbleAt 12 op := by
  rw [and_F000, formXYN_op]

/-- A row recognises a word when the masked word is the row's value. -/
theorem recognises_of_and {r : OpcodeRow} {w v : Word} (h : w &&& r.mask = v) (hv : v = r.value) :
    r.recognises w = true := by
  rw [OpcodeRow.recognises, h, hv, beq_self_eq_true]

theorem RowMatch.cls : RowMatch.Statement .cls :=
  ⟨_, List.mem_of_getElem? (i := 0) rfl, rfl,
    rfl⟩

theorem RowMatch.ret : RowMatch.Statement .ret :=
  ⟨_, List.mem_of_getElem? (i := 1) rfl, rfl,
    rfl⟩

theorem RowMatch.jp (nnn : BitVec 12) : RowMatch.Statement (.jp nnn) :=
  ⟨_, List.mem_of_getElem? (i := 2) rfl, recognises_of_and (formNNN_and _ _) rfl,
    by simp only [encode, fieldNNN_formNNN]⟩

theorem RowMatch.call (nnn : BitVec 12) : RowMatch.Statement (.call nnn) :=
  ⟨_, List.mem_of_getElem? (i := 3) rfl, recognises_of_and (formNNN_and _ _) rfl,
    by simp only [encode, fieldNNN_formNNN]⟩

theorem RowMatch.seImm (x : Reg) (nn : Byte) : RowMatch.Statement (.seImm x nn) :=
  ⟨_, List.mem_of_getElem? (i := 4) rfl, recognises_of_and (formXNN_and _ _ _) rfl,
    by simp only [encode, fieldX_formXNN, fieldNN_formXNN]⟩

theorem RowMatch.sneImm (x : Reg) (nn : Byte) : RowMatch.Statement (.sneImm x nn) :=
  ⟨_, List.mem_of_getElem? (i := 5) rfl, recognises_of_and (formXNN_and _ _ _) rfl,
    by simp only [encode, fieldX_formXNN, fieldNN_formXNN]⟩

theorem RowMatch.seReg (x y : Reg) : RowMatch.Statement (.seReg x y) :=
  ⟨_, List.mem_of_getElem? (i := 6) rfl, recognises_of_and (formXY_and _ _ _ _) rfl,
    by simp only [encode, fieldX_formXYN, fieldY_formXYN]⟩

theorem RowMatch.ldImm (x : Reg) (nn : Byte) : RowMatch.Statement (.ldImm x nn) :=
  ⟨_, List.mem_of_getElem? (i := 7) rfl, recognises_of_and (formXNN_and _ _ _) rfl,
    by simp only [encode, fieldX_formXNN, fieldNN_formXNN]⟩

theorem RowMatch.addImm (x : Reg) (nn : Byte) : RowMatch.Statement (.addImm x nn) :=
  ⟨_, List.mem_of_getElem? (i := 8) rfl, recognises_of_and (formXNN_and _ _ _) rfl,
    by simp only [encode, fieldX_formXNN, fieldNN_formXNN]⟩

theorem RowMatch.ldReg (x y : Reg) : RowMatch.Statement (.ldReg x y) :=
  ⟨_, List.mem_of_getElem? (i := 9) rfl, recognises_of_and (formXY_and _ _ _ _) rfl,
    by simp only [encode, fieldX_formXYN, fieldY_formXYN]⟩

theorem RowMatch.orReg (x y : Reg) : RowMatch.Statement (.orReg x y) :=
  ⟨_, List.mem_of_getElem? (i := 10) rfl, recognises_of_and (formXY_and _ _ _ _) rfl,
    by simp only [encode, fieldX_formXYN, fieldY_formXYN]⟩

theorem RowMatch.andReg (x y : Reg) : RowMatch.Statement (.andReg x y) :=
  ⟨_, List.mem_of_getElem? (i := 11) rfl, recognises_of_and (formXY_and _ _ _ _) rfl,
    by simp only [encode, fieldX_formXYN, fieldY_formXYN]⟩

theorem RowMatch.xorReg (x y : Reg) : RowMatch.Statement (.xorReg x y) :=
  ⟨_, List.mem_of_getElem? (i := 12) rfl, recognises_of_and (formXY_and _ _ _ _) rfl,
    by simp only [encode, fieldX_formXYN, fieldY_formXYN]⟩

theorem RowMatch.addReg (x y : Reg) : RowMatch.Statement (.addReg x y) :=
  ⟨_, List.mem_of_getElem? (i := 13) rfl, recognises_of_and (formXY_and _ _ _ _) rfl,
    by simp only [encode, fieldX_formXYN, fieldY_formXYN]⟩

theorem RowMatch.subReg (x y : Reg) : RowMatch.Statement (.subReg x y) :=
  ⟨_, List.mem_of_getElem? (i := 14) rfl, recognises_of_and (formXY_and _ _ _ _) rfl,
    by simp only [encode, fieldX_formXYN, fieldY_formXYN]⟩

theorem RowMatch.shr (x y : Reg) : RowMatch.Statement (.shr x y) :=
  ⟨_, List.mem_of_getElem? (i := 15) rfl, recognises_of_and (formXY_and _ _ _ _) rfl,
    by simp only [encode, fieldX_formXYN, fieldY_formXYN]⟩

theorem RowMatch.subnReg (x y : Reg) : RowMatch.Statement (.subnReg x y) :=
  ⟨_, List.mem_of_getElem? (i := 16) rfl, recognises_of_and (formXY_and _ _ _ _) rfl,
    by simp only [encode, fieldX_formXYN, fieldY_formXYN]⟩

theorem RowMatch.shl (x y : Reg) : RowMatch.Statement (.shl x y) :=
  ⟨_, List.mem_of_getElem? (i := 17) rfl, recognises_of_and (formXY_and _ _ _ _) rfl,
    by simp only [encode, fieldX_formXYN, fieldY_formXYN]⟩

theorem RowMatch.sneReg (x y : Reg) : RowMatch.Statement (.sneReg x y) :=
  ⟨_, List.mem_of_getElem? (i := 18) rfl, recognises_of_and (formXY_and _ _ _ _) rfl,
    by simp only [encode, fieldX_formXYN, fieldY_formXYN]⟩

theorem RowMatch.ldI (nnn : BitVec 12) : RowMatch.Statement (.ldI nnn) :=
  ⟨_, List.mem_of_getElem? (i := 19) rfl, recognises_of_and (formNNN_and _ _) rfl,
    by simp only [encode, fieldNNN_formNNN]⟩

theorem RowMatch.jpV0 (nnn : BitVec 12) : RowMatch.Statement (.jpV0 nnn) :=
  ⟨_, List.mem_of_getElem? (i := 20) rfl, recognises_of_and (formNNN_and _ _) rfl,
    by simp only [encode, fieldNNN_formNNN]⟩

theorem RowMatch.rnd (x : Reg) (nn : Byte) : RowMatch.Statement (.rnd x nn) :=
  ⟨_, List.mem_of_getElem? (i := 21) rfl, recognises_of_and (formXNN_and _ _ _) rfl,
    by simp only [encode, fieldX_formXNN, fieldNN_formXNN]⟩

theorem RowMatch.drw (x y : Reg) (n : BitVec 4) : RowMatch.Statement (.drw x y n) :=
  ⟨_, List.mem_of_getElem? (i := 22) rfl, recognises_of_and (formXYN_and _ _ _ _) rfl,
    by simp only [encode, fieldX_formXYN, fieldY_formXYN, fieldN_formXYN]⟩

theorem RowMatch.skp (x : Reg) : RowMatch.Statement (.skp x) :=
  ⟨_, List.mem_of_getElem? (i := 23) rfl, recognises_of_and (formX_and _ _ _) rfl,
    by simp only [encode, fieldX_formXNN]⟩

theorem RowMatch.sknp (x : Reg) : RowMatch.Statement (.sknp x) :=
  ⟨_, List.mem_of_getElem? (i := 24) rfl, recognises_of_and (formX_and _ _ _) rfl,
    by simp only [encode, fieldX_formXNN]⟩

theorem RowMatch.ldVxDt (x : Reg) : RowMatch.Statement (.ldVxDt x) :=
  ⟨_, List.mem_of_getElem? (i := 25) rfl, recognises_of_and (formX_and _ _ _) rfl,
    by simp only [encode, fieldX_formXNN]⟩

theorem RowMatch.ldVxK (x : Reg) : RowMatch.Statement (.ldVxK x) :=
  ⟨_, List.mem_of_getElem? (i := 26) rfl, recognises_of_and (formX_and _ _ _) rfl,
    by simp only [encode, fieldX_formXNN]⟩

theorem RowMatch.ldDtVx (x : Reg) : RowMatch.Statement (.ldDtVx x) :=
  ⟨_, List.mem_of_getElem? (i := 27) rfl, recognises_of_and (formX_and _ _ _) rfl,
    by simp only [encode, fieldX_formXNN]⟩

theorem RowMatch.ldStVx (x : Reg) : RowMatch.Statement (.ldStVx x) :=
  ⟨_, List.mem_of_getElem? (i := 28) rfl, recognises_of_and (formX_and _ _ _) rfl,
    by simp only [encode, fieldX_formXNN]⟩

theorem RowMatch.addI (x : Reg) : RowMatch.Statement (.addI x) :=
  ⟨_, List.mem_of_getElem? (i := 29) rfl, recognises_of_and (formX_and _ _ _) rfl,
    by simp only [encode, fieldX_formXNN]⟩

theorem RowMatch.ldF (x : Reg) : RowMatch.Statement (.ldF x) :=
  ⟨_, List.mem_of_getElem? (i := 30) rfl, recognises_of_and (formX_and _ _ _) rfl,
    by simp only [encode, fieldX_formXNN]⟩

theorem RowMatch.ldB (x : Reg) : RowMatch.Statement (.ldB x) :=
  ⟨_, List.mem_of_getElem? (i := 31) rfl, recognises_of_and (formX_and _ _ _) rfl,
    by simp only [encode, fieldX_formXNN]⟩

theorem RowMatch.storeRegs (x : Reg) : RowMatch.Statement (.storeRegs x) :=
  ⟨_, List.mem_of_getElem? (i := 32) rfl, recognises_of_and (formX_and _ _ _) rfl,
    by simp only [encode, fieldX_formXNN]⟩

theorem RowMatch.loadRegs (x : Reg) : RowMatch.Statement (.loadRegs x) :=
  ⟨_, List.mem_of_getElem? (i := 33) rfl, recognises_of_and (formX_and _ _ _) rfl,
    by simp only [encode, fieldX_formXNN]⟩

end Sys2Proof.Laws
end

