-- ==== Sys2Proof/Laws/Timers.lean ====
section
/-! SUPPORT. The arithmetic of the timer countdown (60_exceptions.md R232). -/

namespace Sys2Proof.Machine

/-- An accumulator is below one period after every tick (10_state.md R27). -/
theorem accAfter_lt (acc e : Nat) : accAfter acc e < Config.timerPeriod := Nat.mod_lt _ (by decide)

/-- No time is lost: the whole periods and what is left make up the time counted. -/
theorem periods_accAfter (acc e : Nat) : Config.timerPeriod * periods acc e + accAfter acc e = acc + e :=
  Nat.div_add_mod _ _

/-- A timer loses its periods and stops at zero. -/
theorem decay_toNat (t : Byte) (k : Nat) : (decay t k).toNat = t.toNat - k := by
  unfold decay
  have := t.isLt
  split
  · rw [BitVec.toNat_ofNat, Nat.mod_eq_of_lt (by omega)]
  · simp; omega

/-- Losing periods twice loses their sum. -/
theorem decay_decay (t : Byte) (j k : Nat) : decay (decay t j) k = decay t (j + k) := by
  apply BitVec.eq_of_toNat_eq
  simp only [decay_toNat]; omega

end Sys2Proof.Machine
end

