-- ==== Sys2Proof/Laws/Step.lean ====
section
/-! SUPPORT. What a step can do, said once: the inversion of the step cycle, of the memory runs and of the instructions that
can stop. -/

namespace Sys2Proof.Machine

/-- A run of reads that answers bytes lies inside memory, and the bytes are the ones there. -/
theorem State.readRun_inv {s : State} {a n : Nat} {bs : List Byte} (h : s.readRun a n = .ok bs) :
    (a + n ≤ Config.memSize ∨ n = 0) ∧ bs = (List.range' a n).map s.byteAt := by
  by_cases hin : a + n ≤ Config.memSize ∨ n = 0
  · rw [State.readRun_ok s n a hin] at h
    exact ⟨hin, by cases h; rfl⟩
  · rw [State.readRun_error s n a (by omega) (by omega)] at h
    cases h

/-- A run of reads that stops does so at the first address past memory. -/
theorem State.readRun_inv_error {s : State} {a n : Nat} {f : Fault} (h : s.readRun a n = .error f) :
    n ≠ 0 ∧ Config.memSize < a + n ∧ f = .memReadOutOfBounds (max a Config.memSize) := by
  by_cases hin : a + n ≤ Config.memSize ∨ n = 0
  · rw [State.readRun_ok s n a hin] at h; cases h
  · have hn : n ≠ 0 := by omega
    have hout : Config.memSize < a + n := by omega
    rw [State.readRun_error s n a hn hout] at h
    exact ⟨hn, hout, by cases h; rfl⟩

/-- A run of writes that answers a machine lies inside memory and has changed memory alone. -/
theorem State.writeRun_inv {s t : State} {a : Nat} {bs : List Byte} (h : State.writeRun a bs s = .ok t) :
    (a + bs.length ≤ Config.memSize ∨ bs = []) ∧ t = s.setMem (Memory.putRun a bs s.mem) := by
  by_cases hin : a + bs.length ≤ Config.memSize ∨ bs = []
  · rw [State.writeRun_ok bs a s hin] at h
    exact ⟨hin, by cases h; rfl⟩
  · rw [State.writeRun_error bs a s (fun e => hin (.inr e)) (by omega)] at h
    cases h

/-- A run of writes that stops does so at the first address past memory. -/
theorem State.writeRun_inv_error {s : State} {a : Nat} {bs : List Byte} {f : Fault}
    (h : State.writeRun a bs s = .error f) :
    bs ≠ [] ∧ Config.memSize < a + bs.length ∧ f = .memWriteOutOfBounds (max a Config.memSize) := by
  by_cases hin : a + bs.length ≤ Config.memSize ∨ bs = []
  · rw [State.writeRun_ok bs a s hin] at h; cases h
  · have hb : bs ≠ [] := fun e => hin (.inr e)
    have hout : Config.memSize < a + bs.length := by omega
    rw [State.writeRun_error bs a s hb hout] at h
    exact ⟨hb, hout, by cases h; rfl⟩

/-- The end of a memory instruction is a next state exactly when its accesses answered one. -/
theorem finish_next {r : Except Fault State} {t : State} : finish r = .next t ↔ r = .ok t := by
  cases r <;> simp [finish]

/-- The end of a memory instruction is a fault exactly when one of its accesses stopped. -/
theorem finish_fault {r : Except Fault State} {f : Fault} : finish r = .fault f ↔ r = .error f := by
  cases r <;> simp [finish]

/-- A skip writes PC and nothing else. -/
theorem State.skipIf_eq (c : Bool) (s : State) : s.skipIf c = s.setPc (if c then s.pc + 2 else s.pc) := by
  unfold State.skipIf; cases c <;> rfl

/-- What is before the fetch: the keys and the random byte are latched, both timers are ticked, nothing else changes. -/
theorem State.beginStep_eq (s : State) (inp : StepInput) :
    s.beginStep inp =
      { s with
        key := inp.keyInput
        rnd := inp.rnd
        dt := decay s.dt (periods s.dtAcc inp.elapsed)
        dtAcc := accAfter s.dtAcc inp.elapsed
        st := decay s.st (periods s.stAcc inp.elapsed)
        stAcc := accAfter s.stAcc inp.elapsed } := rfl

/-- Everything a step can do: refuse on a halted core; stop at a fetch out of range; report an unsupported opcode; or run
the instruction fetched. -/
theorem stepWith_cases (inp : StepInput) (s : State) :
    (s.halted = true ∧ stepWith inp s = .refused .coreHalted) ∨
    (s.halted = false ∧ ∃ f, (s.beginStep inp).fetch = .error f ∧ stepWith inp s = .fault f) ∨
    (s.halted = false ∧ ∃ w, (s.beginStep inp).fetch = .ok w ∧ decodeWord w = .error (.unsupportedOpcode w) ∧
      stepWith inp s = .next ((s.beginStep inp).advance.takeUnsupported w)) ∨
    (s.halted = false ∧ ∃ w i, (s.beginStep inp).fetch = .ok w ∧ decodeWord w = .ok i ∧
      stepWith inp s = exec i (s.beginStep inp).advance) := by
  unfold stepWith
  cases hh : s.halted
  · right
    rw [if_neg (by simp)]
    unfold fetchAndDispatch
    cases hf : (s.beginStep inp).fetch with
    | error f => exact .inl ⟨rfl, f, rfl, rfl⟩
    | ok w =>
      right
      unfold dispatch
      cases hd : decodeWord w with
      | error e =>
        have e' := decodeWord_error hd
        subst e'
        exact .inl ⟨rfl, w, rfl, hd, by simp only [hd]⟩
      | ok i => exact .inr ⟨rfl, w, i, rfl, hd, by simp only [hd]⟩
  · exact .inl ⟨rfl, if_pos rfl⟩

/-- A step that answers a next state reported an unsupported opcode or ran the instruction fetched. -/
theorem stepWith_next {inp : StepInput} {s t : State} (h : stepWith inp s = .next t) :
    s.halted = false ∧ ∃ w, (s.beginStep inp).fetch = .ok w ∧
      ((decodeWord w = .error (.unsupportedOpcode w) ∧ t = (s.beginStep inp).advance.takeUnsupported w) ∨
       ∃ i, decodeWord w = .ok i ∧ exec i (s.beginStep inp).advance = .next t) := by
  rcases stepWith_cases inp s with ⟨_, e⟩ | ⟨_, _, _, e⟩ | ⟨hh, w, hf, hd, e⟩ | ⟨hh, w, i, hf, hd, e⟩
  · rw [e] at h; cases h
  · rw [e] at h; cases h
  · rw [e] at h; cases h; exact ⟨hh, w, hf, .inl ⟨hd, rfl⟩⟩
  · exact ⟨hh, w, hf, .inr ⟨i, hd, e ▸ h⟩⟩

/-- A word placed where the fetch reads is the word fetched. -/
theorem State.fetch_placeWord (s : State) (w : Word) (h : s.pc.toNat + 1 < Config.memSize) :
    (s.placeWord s.pc.toNat w).fetch = .ok w := by
  unfold State.placeWord
  rw [if_pos h]
  rcases State.fetch_spec (s.setMem (Memory.putRun s.pc.toNat [highByte w, lowByte w] s.mem)) with ⟨_, e⟩ | ⟨hge, _⟩
  · rw [e]
    have e0 : (s.setMem (Memory.putRun s.pc.toNat [highByte w, lowByte w] s.mem)).byteAt s.pc.toNat = highByte w := by
      rw [State.byteAt_setMem, Memory.byteAt_putRun, dif_pos (by simp)]; simp
    have e1 : (s.setMem (Memory.putRun s.pc.toNat [highByte w, lowByte w] s.mem)).byteAt (s.pc.toNat + 1) = lowByte w := by
      rw [State.byteAt_setMem, Memory.byteAt_putRun, dif_pos (by simp)]; simp
    show Except.ok (wordOfBytes (State.byteAt _ s.pc.toNat) (State.byteAt _ (s.pc.toNat + 1))) = _
    rw [e0, e1, wordOfBytes_bytes]
  · exact absurd h (by simpa using hge)

end Sys2Proof.Machine
end

