-- ==== Sys2Proof/Tests/Slice0.lean ====
section
/-! SUPPORT. The model's own tests. Expected results are those of spec/95_test_vectors.md (T<n>) or worked by hand from the rule
named; no result is the model's own answer. Witnesses at the end show that each statement's hypotheses can be met. -/

-- The theorems of this file are checked one after another, so that the compile needs few threads.
set_option Elab.async false

namespace Sys2Proof.Tests

open Sys2Proof Sys2Proof.Machine

/-- No key pressed, no time, random byte 0: the inputs of every vector unless it says otherwise. -/
def quiet : StepInput := ⟨0, 0, 0⟩

/-- One step on a machine with given inputs and a given word where it fetches; does the next state meet `p`? -/
def runs (inp : StepInput) (w : Nat) (s : State) (p : State → Bool) : Bool :=
  match step (State.withFetchWord { s with pending := [inp] } 16 w) with
  | .next t => p t
  | _ => false

/-- One step on such a machine ends in the fault given. -/
def faults (w : Nat) (s : State) (f : Fault) : Bool :=
  match step (State.withFetchWord { s with pending := [quiet] } 16 w) with
  | .fault g => g == f
  | _ => false

/-- The machine after reset with two registers set. -/
def regs2 (x : Reg) (a : Byte) (y : Reg) (b : Byte) : State := (State.reset.setReg x a).setReg y b

/-- The machine after reset with I and one register set. -/
def withI (i : Word) (x : Reg) (a : Byte) : State := (State.reset.setI i).setReg x a

/-- The machine after reset with bytes stored at an address. -/
def withBytes (a : Nat) (bs : List Byte) (s : State) : State := s.setMem (Memory.putRun a bs s.mem)

/-! ### Well-formedness: an ill-formed term for each check (70_reset_and_hazards.md R264, R265) -/

theorem test_font_short_is_ill_formed : fontWellFormed (List.replicate 79 0xF0) = false := by decide
theorem test_font_is_well_formed : fontWellFormed (List.replicate 80 0xF0) = true := by decide
theorem test_program_long_is_ill_formed : programWellFormed (List.replicate 2049 0x12) = false := by decide +kernel
theorem test_program_is_well_formed : programWellFormed (List.replicate 2048 0x12) = true := by decide +kernel
theorem test_instr_is_well_formed : Instr.wellFormed (.drw 15 15 15) = true := rfl

/-! ### Decoding: one word per constructor, written bit by bit from 30_encoding.md R87 -/

theorem test_decode_cls : decodeTableWord 16 0b0000000011100000 = some .cls := by decide
theorem test_decode_ret : decodeTableWord 16 0b0000000011101110 = some .ret := by decide
theorem test_decode_jp : decodeTableWord 16 0b0001001000110100 = some (.jp 0x234) := by decide
theorem test_decode_call : decodeTableWord 16 0b0010101010111100 = some (.call 0xABC) := by decide
theorem test_decode_seImm : decodeTableWord 16 0b0011001101000010 = some (.seImm 3 0x42) := by decide
theorem test_decode_sneImm : decodeTableWord 16 0b0100001101000010 = some (.sneImm 3 0x42) := by decide
theorem test_decode_seReg : decodeTableWord 16 0b0101000100100000 = some (.seReg 1 2) := by decide
theorem test_decode_ldImm : decodeTableWord 16 0b0110101011111111 = some (.ldImm 0xA 0xFF) := by decide
theorem test_decode_addImm : decodeTableWord 16 0b0111101000000001 = some (.addImm 0xA 0x01) := by decide
theorem test_decode_ldReg : decodeTableWord 16 0b1000000000010000 = some (.ldReg 0 1) := by decide
theorem test_decode_orReg : decodeTableWord 16 0b1000000100100001 = some (.orReg 1 2) := by decide
theorem test_decode_andReg : decodeTableWord 16 0b1000000100100010 = some (.andReg 1 2) := by decide
theorem test_decode_xorReg : decodeTableWord 16 0b1000000100100011 = some (.xorReg 1 2) := by decide
theorem test_decode_addReg : decodeTableWord 16 0b1000000100100100 = some (.addReg 1 2) := by decide
theorem test_decode_subReg : decodeTableWord 16 0b1000000100100101 = some (.subReg 1 2) := by decide
theorem test_decode_shr : decodeTableWord 16 0b1000000100100110 = some (.shr 1 2) := by decide
theorem test_decode_subnReg : decodeTableWord 16 0b1000000100100111 = some (.subnReg 1 2) := by decide
theorem test_decode_shl : decodeTableWord 16 0b1000000100101110 = some (.shl 1 2) := by decide
theorem test_decode_sneReg : decodeTableWord 16 0b1001000100100000 = some (.sneReg 1 2) := by decide
theorem test_decode_ldI : decodeTableWord 16 0b1010001011110000 = some (.ldI 0x2F0) := by decide
theorem test_decode_jpV0 : decodeTableWord 16 0b1011001100000000 = some (.jpV0 0x300) := by decide
theorem test_decode_rnd : decodeTableWord 16 0b1100001100001111 = some (.rnd 3 0x0F) := by decide
theorem test_decode_drw : decodeTableWord 16 0b1101000100100011 = some (.drw 1 2 3) := by decide
theorem test_decode_skp : decodeTableWord 16 0b1110010110011110 = some (.skp 5) := by decide
theorem test_decode_sknp : decodeTableWord 16 0b1110010110100001 = some (.sknp 5) := by decide
theorem test_decode_ldVxDt : decodeTableWord 16 0b1111001100000111 = some (.ldVxDt 3) := by decide
theorem test_decode_ldVxK : decodeTableWord 16 0b1111001000001010 = some (.ldVxK 2) := by decide
theorem test_decode_ldDtVx : decodeTableWord 16 0b1111000100010101 = some (.ldDtVx 1) := by decide
theorem test_decode_ldStVx : decodeTableWord 16 0b1111000100011000 = some (.ldStVx 1) := by decide
theorem test_decode_addI : decodeTableWord 16 0b1111000100011110 = some (.addI 1) := by decide
theorem test_decode_ldF : decodeTableWord 16 0b1111010000101001 = some (.ldF 4) := by decide
theorem test_decode_ldB : decodeTableWord 16 0b1111000100110011 = some (.ldB 1) := by decide
theorem test_decode_storeRegs : decodeTableWord 16 0b1111100001010101 = some (.storeRegs 8) := by decide
theorem test_decode_loadRegs : decodeTableWord 16 0b1111111101100101 = some (.loadRegs 15) := by decide

/-- T3: 0nnn other than 00E0 and 00EE is unsupported. -/
theorem test_decode_rejects_0nnn : decodeTableWord 16 0x00E1 = none ∧ decodeTableWord 16 0x0123 = none := by decide
/-- T4, T5, T6: 5xyN, 8xyN, 9xyN outside the table. -/
theorem test_decode_rejects_xyN : decodeTableWord 16 0x5121 = none ∧ decodeTableWord 16 0x8128 = none ∧
    decodeTableWord 16 0x812F = none ∧ decodeTableWord 16 0x9121 = none := by decide
/-- T7, T8: ExNN, FxNN outside the table. -/
theorem test_decode_rejects_xNN : decodeTableWord 16 0xE19F = none ∧ decodeTableWord 16 0xF100 = none ∧
    decodeTableWord 16 0xFFFF = none := by decide
/-- The rejection carries the raw word (R78), and a single byte is no instruction. -/
theorem test_decode_rejects_by_name : decode [0x51, 0x21] = .error (.unsupportedOpcode 0x5121) ∧
    decode [0x00] = .error .truncated := by decide
/-- R70 over the word 0xD01F (section 1, example 1): x, y, n, nn, nnn. -/
theorem test_fields : fieldX 0xD01F = 0 ∧ fieldY 0xD01F = 1 ∧ fieldN 0xD01F = 0xF ∧ fieldNN 0xD01F = 0x1F ∧
    fieldNNN 0xD01F = 0x01F := by decide

/-! ### Control flow (section 2.3) -/

/-- T20 -/
theorem test_jp : runs quiet 0x1234 State.reset (fun t => t.pc == 0x234) := by decide +kernel
/-- T23 -/
theorem test_call : runs quiet 0x2200 (State.reset.setStack [0x400, 0x300]) (fun t => t.pc == 0x200 && t.stack == [0x202, 0x400, 0x300]) := by decide +kernel
/-- T24 -/
theorem test_ret : runs quiet 0x00EE ((State.reset.setStack [0x202]).setPc 0x300) (fun t => t.pc == 0x202 && t.stack == []) := by decide +kernel
/-- T25 -/
theorem test_ret_empty : faults 0x00EE State.reset (.stackUnderflow 0x200) := by decide +kernel
/-- T26 -/
theorem test_seImm : runs quiet 0x3342 (State.reset.setReg 3 0x42) (fun t => t.pc == 0x204) := by decide +kernel
/-- T29 -/
theorem test_sneImm : runs quiet 0x4342 (State.reset.setReg 3 0x42) (fun t => t.pc == 0x202) := by decide +kernel
/-- T30 -/
theorem test_seReg : runs quiet 0x5120 (regs2 1 7 2 7) (fun t => t.pc == 0x204) := by decide +kernel
/-- T33 -/
theorem test_sneReg : runs quiet 0x9120 (regs2 1 7 2 8) (fun t => t.pc == 0x204) := by decide +kernel
/-- T35 -/
theorem test_jpV0 : runs quiet 0xB300 (State.reset.setReg 0 0x10) (fun t => t.pc == 0x512) := by decide +kernel
/-- T36 -/
theorem test_jpV0_top : runs quiet 0xBFFF ((State.reset.setReg 0 0xFF).setPc 0xFFE) (fun t => t.pc == 0x20FE) := by decide +kernel
/-- T37 -/
theorem test_skip_past_memory : runs quiet 0x3000 (State.reset.setPc 0xFFC) (fun t => t.pc == 0x1000) := by decide +kernel

/-! ### Transfer, constant add, logic (section 2.4) -/

/-- T40 -/
theorem test_ldImm : runs quiet 0x6AFF State.reset (fun t => t.reg 0xA == 0xFF && t.pc == 0x202) := by decide +kernel
/-- T41 -/
theorem test_addImm : runs quiet 0x7A01 (regs2 0xA 0xFF 0xF 0x55) (fun t => t.reg 0xA == 0x00 && t.reg 0xF == 0x55) := by decide +kernel
/-- T43 -/
theorem test_ldReg : runs quiet 0x8010 (State.reset.setReg 1 0x33) (fun t => t.reg 0 == 0x33) := by decide +kernel
/-- T44 -/
theorem test_orReg : runs quiet 0x8011 ((regs2 0 0xF0 1 0x0F).setReg 0xF 0x55) (fun t => t.reg 0 == 0xFF && t.reg 0xF == 0x55) := by decide +kernel
/-- T45 -/
theorem test_andReg : runs quiet 0x8012 (regs2 0 0xF0 1 0x3C) (fun t => t.reg 0 == 0x30) := by decide +kernel
/-- T46 -/
theorem test_xorReg : runs quiet 0x8013 (regs2 0 0xF0 1 0x3C) (fun t => t.reg 0 == 0xCC) := by decide +kernel

/-! ### Flagged arithmetic and shifts (section 2.5, section 1 examples 3 to 5) -/

/-- Example 3 -/
theorem test_addReg : runs quiet 0x8014 (regs2 0 0xA2 1 0x7F) (fun t => t.reg 0 == 0x21 && t.reg 0xF == 1) := by decide +kernel
/-- T53: the flag survives x = F -/
theorem test_addReg_into_VF : runs quiet 0x8F14 (regs2 0xF 0x80 1 0x90) (fun t => t.reg 0xF == 1) := by decide +kernel
/-- Example 4 -/
theorem test_subReg : runs quiet 0x8015 (regs2 0 0x11 1 0xCA) (fun t => t.reg 0 == 0x47 && t.reg 0xF == 0) := by decide +kernel
/-- T55: equal operands do not borrow -/
theorem test_subReg_equal : runs quiet 0x8015 (regs2 0 0x05 1 0x05) (fun t => t.reg 0 == 0x00 && t.reg 0xF == 1) := by decide +kernel
/-- T59 -/
theorem test_subnReg : runs quiet 0x8017 (regs2 0 0x4D 1 0xC3) (fun t => t.reg 0 == 0x76 && t.reg 0xF == 1) := by decide +kernel
/-- T60 -/
theorem test_subnReg_borrow : runs quiet 0x8017 (regs2 0 0xCA 1 0x11) (fun t => t.reg 0 == 0x47 && t.reg 0xF == 0) := by decide +kernel
/-- Example 5 -/
theorem test_shr : runs quiet 0x8016 (State.reset.setReg 0 0x59) (fun t => t.reg 0 == 0x2C && t.reg 0xF == 1) := by decide +kernel
/-- T64: Vy is ignored -/
theorem test_shr_ignores_y : runs quiet 0x8126 (regs2 1 0x04 2 0xFF) (fun t => t.reg 1 == 0x02 && t.reg 0xF == 0) := by decide +kernel
/-- Example 5 -/
theorem test_shl : runs quiet 0x801E (State.reset.setReg 0 0x9C) (fun t => t.reg 0 == 0x38 && t.reg 0xF == 1) := by decide +kernel
/-- T69 -/
theorem test_shl_into_VF : runs quiet 0x8F0E (State.reset.setReg 0xF 0x40) (fun t => t.reg 0xF == 0) := by decide +kernel

/-! ### Index and random (section 2.6) -/

/-- T70 -/
theorem test_ldI : runs quiet 0xA123 State.reset (fun t => t.i == 0x0123) := by decide +kernel
/-- T73 -/
theorem test_addI_wraps : runs quiet 0xF11E (withI 0xFFFF 1 0x02) (fun t => t.i == 0x0001 && t.reg 0xF == 0) := by decide +kernel
/-- T76: the operand VF is read before the flag -/
theorem test_addI_from_VF : runs quiet 0xFF1E (withI 0x0FF0 0xF 0x10) (fun t => t.i == 0x1000 && t.reg 0xF == 1) := by decide +kernel
/-- T77 -/
theorem test_rnd : runs ⟨0, 0, 0xAB⟩ 0xC30F State.reset (fun t => t.reg 3 == 0x0B) := by decide +kernel

/-! ### Keys and timers (section 2.7) -/

/-- T82: only the low nibble selects the key -/
theorem test_skp : runs ⟨0x0400, 0, 0⟩ 0xE59E (State.reset.setReg 5 0x1A) (fun t => t.pc == 0x204 && t.key == 0x0400) := by decide +kernel
/-- T84 -/
theorem test_sknp : runs ⟨0x0400, 0, 0⟩ 0xE5A1 (State.reset.setReg 5 0x0A) (fun t => t.pc == 0x202) := by decide +kernel
/-- T85 -/
theorem test_ldVxK_waits : runs ⟨0x0010, 0, 0⟩ 0xF20A (State.reset.setReg 2 0x03) (fun t => t.pc == 0x200) := by decide +kernel
/-- T86 -/
theorem test_ldVxK_goes_on : runs ⟨0x0008, 0, 0⟩ 0xF20A (State.reset.setReg 2 0x03) (fun t => t.pc == 0x202 && t.reg 2 == 0x03) := by decide +kernel
/-- T89: the tick comes before the instruction -/
theorem test_ldVxDt : runs ⟨0, 17000000, 0⟩ 0xF307 (State.reset.setDt 5) (fun t => t.dt == 4 && t.reg 3 == 4) := by decide +kernel
/-- T89a -/
theorem test_ldDtVx : runs quiet 0xF115 (State.reset.setReg 1 0x3C) (fun t => t.dt == 0x3C) := by decide +kernel
/-- T89b -/
theorem test_ldStVx : runs quiet 0xF118 (State.reset.setReg 1 0x3C) (fun t => t.st == 0x3C) := by decide +kernel
/-- T89c -/
theorem test_tick_short : runs ⟨0, 16999999, 0⟩ 0x1200 (State.reset.setDt 5) (fun t => t.dt == 5 && t.dtAcc == 16999999 && t.stAcc == 16999999) := by decide +kernel
/-- T89d -/
theorem test_tick_long : runs ⟨0, 1000000000, 0⟩ 0x1200 (State.reset.setDt 3) (fun t => t.dt == 0 && t.dtAcc == 14000000) := by decide +kernel
/-- T89e, second step -/
theorem test_timer_set_keeps_accumulator : runs ⟨0, 1000000, 0⟩ 0x1200 { State.reset.setDt 10 with dtAcc := 16000000 } (fun t => t.dt == 9 && t.dtAcc == 0) := by decide +kernel

/-! ### Font, BCD, block transfer (section 2.8) -/

/-- T92: the whole byte counts -/
theorem test_ldF : runs quiet 0xF129 (State.reset.setReg 1 0xFF) (fun t => t.i == 0x54B) := by decide +kernel
/-- T93 -/
theorem test_ldB : runs quiet 0xF133 (withI 0x300 1 0xFE) (fun t => t.byteAt 0x300 == 2 && t.byteAt 0x301 == 5 && t.byteAt 0x302 == 4 && t.i == 0x300) := by decide +kernel
/-- T96 -/
theorem test_ldB_past_memory : faults 0xF133 (withI 0x0FFE 1 0x7B) (.memWriteOutOfBounds 0x1000) := by decide +kernel
/-- P6, step 4 -/
theorem test_storeRegs : runs quiet 0xF155 ((regs2 0 0x12 1 0x0C).setI 0x208) (fun t => t.byteAt 0x208 == 0x12 && t.byteAt 0x209 == 0x0C && t.byteAt 0x20A == 0 && t.i == 0x208) := by decide +kernel
/-- T99 -/
theorem test_storeRegs_past_memory : faults 0xF855 (State.reset.setI 0x0FF8) (.memWriteOutOfBounds 0x1000) := by decide +kernel
/-- R193, example -/
theorem test_loadRegs : runs quiet 0xF265 (withBytes 0x400 [1, 2, 3, 4] (State.reset.setI 0x400)) (fun t => t.reg 0 == 1 && t.reg 1 == 2 && t.reg 2 == 3 && t.reg 3 == 0 && t.i == 0x400) := by decide +kernel
/-- T101 -/
theorem test_loadRegs_past_memory : faults 0xF165 (State.reset.setI 0x0FFF) (.memReadOutOfBounds 0x1000) := by decide +kernel

/-! ### Display (section 2.9) -/

/-- T110 -/
theorem test_cls : runs quiet 0x00E0 (State.reset.setFb (Display.flip (Display.flip Display.clear 0 0) 31 63)) (fun t => !t.pixel 0 0 && !t.pixel 31 63) := by decide +kernel
/-- T115: clipped at the right edge -/
theorem test_drw_right_edge : runs quiet 0xD011 (withBytes 0x300 [0xFF] (withI 0x300 0 60)) (fun t => !t.pixel 0 59 && t.pixel 0 60 && t.pixel 0 63 && !t.pixel 0 0 && !t.pixel 0 3 && !t.pixel 1 0) := by decide +kernel
/-- T118: an erase sets no flag -/
theorem test_drw_no_collision : runs quiet 0xD011 (withBytes 0x300 [0xC0] ((withI 0x300 0xF 0x55).setFb (Display.flip Display.clear 0 0))) (fun t => !t.pixel 0 0 && t.pixel 0 1 && t.reg 0xF == 0x55) := by decide +kernel
/-- T116, T117: clipped rows are read first -/
theorem test_drw_bottom_edge : runs quiet 0xD013 (withBytes 0x300 [0x80, 0xFF, 0xFF] (withI 0x300 1 31)) (fun t => t.pixel 31 0 && !t.pixel 31 1 && !t.pixel 0 0) && faults 0xD013 (withI 0x0FFE 1 31) (.memReadOutOfBounds 0x1000) := by decide +kernel

/-! ### The step and the host (sections 2.2 and 3) -/

/-- T10: the last full word of memory -/
theorem test_fetch_top : runs quiet 0x1200 (State.reset.setPc 0xFFE) (fun t => t.pc == 0x200) := by decide +kernel
/-- T11 -/
theorem test_fetch_past_memory : faults 0x1200 (State.reset.setPc 0xFFF) (.memReadOutOfBounds 0x1000) := by decide +kernel
/-- T13 -/
theorem test_unsupported : runs ⟨0, 17000000, 0⟩ 0x5121 (State.reset.setDt 2) (fun t => t.dt == 1 && t.pc == 0x202 && t.report == .unsupportedOpcode 0x5121) := by decide +kernel
/-- T17: the keys are latched first -/
theorem test_unsupported_latches_keys : runs ⟨0x0080, 0, 0⟩ 0x0000 State.reset (fun t => t.key == 0x0080 && t.pc == 0x202) := by decide +kernel
/-- P8, step 2: the host sees code 4 and the address of the 00EE, and the core is halted. -/
theorem test_reply_underflow :
    (transact State.reset (.step quiet) ((State.reset.setPc 0x202).placeWord 0x202 0x00EE)).2 = .outcome 4 0x202 := by
  decide +kernel
/-- R265: a load leaves PC at 0x200 and the bytes from 0x200 on. -/
theorem test_load_program : (State.reset.loadProgram [0x12, 0x34]).map (fun t => (t.pc, t.byteAt 0x200, t.byteAt 0x201)) =
    some (0x200, 0x12, 0x34) := by decide +kernel
/-- R264: 79 bytes are no font. -/
theorem test_write_font_short : (transact State.reset (.writeFont (List.replicate 79 1)) State.reset).2 =
    .refused (.fontBufferLength 79) := by decide +kernel
/-- R241: get_state shows a register, DT, HALTED and a byte of memory as they stand, and changes nothing. -/
theorem test_get_state : ∃ view, transact State.reset .getState (withBytes 0xFFF [0x7B] (regs2 0 1 15 2)) =
    (withBytes 0xFFF [0x7B] (regs2 0 1 15 2), .view view) ∧ view.v[15] = 2 ∧ view.dt = 0 ∧ view.halted = false ∧
    Memory.byteAt 0xFFF view.mem = 0x7B := ⟨_, rfl, by decide⟩
/-- R260: the reset operation clears an old register, I, the stack and old memory. -/
theorem test_reset_operation :
    (transact State.reset .reset (withBytes 0x300 [7] ((withI 0x300 5 9).setStack [0x202]))).1 = State.reset := rfl
/-- The canonical form: writing the reset byte unlists the address, and a list out of order is not canonical (log entry 7). -/
theorem test_memory_canonical : Memory.put 0x300 0 (Memory.put 0x300 7 []) = [] ∧
    Memory.wf [(0x301, 1), (0x300, 1)] = false ∧ Memory.wf [(0x300, 0)] = false ∧ Memory.wf [(0x1000, 1)] = false := by
  decide

/-! ### Witnesses: each statement's hypotheses can be met, at the ends of their ranges -/

/-- `EncodeInvertsDecode`. -/
theorem witness_decodes : decodeWord 0x8124 = .ok (.addReg 1 2) := by decide
/-- `NoWordMatchesTwoRows`. -/
theorem witness_row : ∃ r, opcodeTable[13]? = some r ∧ r.recognises 0x8124 = true := ⟨_, rfl, by decide⟩
/-- A machine at the last address a fetch can start from, with ADD V1, V2 there. -/
def atTop : State := (State.reset.setPc 0xFFE).placeWord 0xFFE 0x8124
/-- `StepRunsTheDecodedInstruction`, `PlacedInstructionRunsNext`. -/
theorem witness_fetch : atTop.halted = false ∧ atTop.pc.toNat + 1 < 4096 ∧
    (0x8124 : Word).toNat = 256 * (atTop.byteAt atTop.pc.toNat).toNat + (atTop.byteAt (atTop.pc.toNat + 1)).toNat ∧
    decodeWord 0x8124 = .ok (.addReg 1 2) := by decide +kernel
/-- `UnsupportedOpcodeIsReportedAndSkipped`: reset itself, whose memory is all zero. -/
theorem witness_unsupported : State.reset.halted = false ∧ State.reset.pc.toNat + 1 < 4096 ∧
    (0x0000 : Word).toNat =
      256 * (State.reset.byteAt State.reset.pc.toNat).toNat + (State.reset.byteAt (State.reset.pc.toNat + 1)).toNat ∧
    ∀ i, decodeWord 0x0000 ≠ .ok i := by
  refine ⟨rfl, by decide, by decide, fun i h => ?_⟩
  have e : decodeWord 0x0000 = .error (.unsupportedOpcode 0x0000) := by decide
  rw [e] at h; cases h
/-- `FetchPastMemoryIsFatal`: the first and the last PC. -/
theorem witness_fetch_past : (State.reset.setPc 0xFFF).halted = false ∧ 4096 ≤ (State.reset.setPc 0xFFF).pc.toNat + 1 ∧
    4096 ≤ (State.reset.setPc 0xFFFF).pc.toNat + 1 := by decide
/-- `OnlyResetLeavesHalted`. -/
theorem witness_halted : (State.afterFatal (.stackUnderflow 0x202) State.reset).halted = true := rfl
/-- `FatalOutcomeIsReportedAndHalts`, `GetStateShowsHalted`: one step for each kind. -/
theorem witness_fatal :
    stepWith quiet (State.reset.setPc 0xFFFF) = .fault (.memReadOutOfBounds 0xFFFF) ∧
    stepWith quiet (State.reset.placeWord 0x200 0x00EE) = .fault (.stackUnderflow 0x200) ∧
    stepWith quiet ((State.reset.setI 0xFFFF).placeWord 0x200 0xF055) = .fault (.memWriteOutOfBounds 0xFFFF) :=
  ⟨rfl, rfl, rfl⟩
/-- `StepKeepsInvariant`, `StepReplyNamesTheOutcome`: an instruction run and an unsupported word. -/
theorem witness_step : State.reset.Inv ∧ (∃ t, step State.reset = .next t) ∧ atTop.Inv ∧ (∃ t, step atTop = .next t) ∧
    (∃ t, stepWith quiet State.reset = .next t) ∧ ∃ t, stepWith quiet atTop = .next t :=
  ⟨by decide, ⟨_, rfl⟩, by decide, ⟨_, rfl⟩, ⟨_, rfl⟩, ⟨_, rfl⟩⟩
/-- `HostOperationsKeepInvariant`. -/
theorem witness_host_inv : State.reset.Inv ∧ (State.reset.setPc 0x300).Inv := by decide
/-- `CanonicalMemoryIsUnique`: a memory with a byte at each end. -/
theorem witness_memory : Memory.wf [(0x000, 0x12), (0xFFF, 0x34)] = true := by decide
/-- `ResetValues`: the reset operation on a machine that is not as reset left it. -/
theorem witness_reset : ∃ s wreck t : State, t = (transact wreck .reset s).1 ∧ s ≠ State.reset :=
  ⟨State.reset.setReg 3 7, State.reset, _, rfl, by decide +kernel⟩
/-- `InstructionsWriteOnlyTheirPieces`: a store answers a next state and the last byte stored and the one after it fall on
the two sides of its memory clause; the last pixel of a sprite and the column after it on those of its display clause. -/
theorem witness_frame : (∃ t, exec (.storeRegs 1) (State.reset.setI 0xFFE) = .next t) ∧
    Instr.StoresTo (State.reset.setI 0xFFE) 0xFFF (.storeRegs 1) ∧
    ¬ Instr.StoresTo (State.reset.setI 0xFFE) 0x1000 (.storeRegs 1) ∧
    Instr.MayDraw State.reset 14 7 (.drw 0 0 15) ∧ ¬ Instr.MayDraw State.reset 14 8 (.drw 0 0 15) := by
  refine ⟨⟨_, rfl⟩, ?_, ?_, ?_, ?_⟩ <;> simp only [Instr.StoresTo, Instr.MayDraw, InRun] <;> decide
/-- `InstructionsWriteOnlyTheirPieces`, `FlagWritersLeaveZeroOrOne`: a flag writer, and an instruction that is none. -/
theorem witness_exec : (∃ t, exec (.addI 15) State.reset = .next t) ∧ Instr.WritesFlag (.addI 15) ∧
    (∃ t, exec (.ldImm 0 1) State.reset = .next t) ∧ ¬ Instr.WritesFlag (.ldImm 0 1) ∧ ¬ Instr.IsDest VF (.ldImm 0 1) :=
  ⟨⟨_, rfl⟩, trivial, ⟨_, rfl⟩, id, show ¬ (VF = (0 : Reg)) by decide⟩
/-- `WriteFaultsExactly`, `ReadFaultsExactly`, `StackUnderflowExactly`: each side of each equivalence at its first address. -/
theorem witness_faults :
    exec (.ldB 0) (State.reset.setI 0xFFE) = .fault (.memWriteOutOfBounds 0x1000) ∧
    exec (.storeRegs 1) (State.reset.setI 0xFFF) = .fault (.memWriteOutOfBounds 0x1000) ∧
    exec (.drw 0 0 1) (State.reset.setI 0x1000) = .fault (.memReadOutOfBounds 0x1000) ∧
    exec (.loadRegs 15) (State.reset.setI 0xFF1) = .fault (.memReadOutOfBounds 0x1000) ∧
    exec .ret (State.reset.setPc 0x202) = .fault (.stackUnderflow 0x200) := ⟨rfl, rfl, rfl, rfl, rfl⟩
/-- `ReturnPopsPc`: a stack of one entry, and the empty stack. -/
theorem witness_stack : (State.reset.setStack [0x202]).stack = 0x202 :: [] ∧ State.reset.stack = [] := ⟨rfl, rfl⟩
/-- `AddSetsCarry` and its kin: a destination other than VF. -/
theorem witness_not_VF : (0 : Reg) ≠ VF := by decide
/-- `TimerSetKeepsAccumulator`: the longest accumulator, just before and at the first decrement. -/
theorem witness_timer_set : ({ State.reset.setReg 1 10 with dtAcc := 16999999 } : State).dtAcc < 17000000 ∧
    0 < ((State.reset.setReg 1 10).reg 1).toNat ∧ 0 < 17000000 - 16999999 ∧ ¬ 1 < 17000000 - 16999999 := by decide
/-- `BcdStoresDigits`: the last I that fits and the first that does not. -/
theorem witness_bcd : (State.reset.setI 0xFFD).i.toNat ≤ 0xFFD ∧ (State.reset.setI 0xFFE).i.toNat > 0xFFD := by decide
/-- `StoreRegistersToMemory`, `LoadRegistersFromMemory`: the last run that fits and the first that does not. -/
theorem witness_block : (State.reset.setI 0xFF0).i.toNat + (15 : Reg).val ≤ 0xFFF ∧
    (State.reset.setI 0xFF1).i.toNat + (15 : Reg).val > 0xFFF := by decide
/-- `StoreThenLoadRestores`, `StoredWordIsFetched`: V0 and V1 stored in the last two bytes. -/
theorem witness_store : (∃ t, exec (.storeRegs 1) (State.reset.setI 0xFFE) = .next t) ∧ (1 : Reg).val = (0 : Reg).val + 1 ∧
    (1 : Reg).val ≤ (1 : Reg).val ∧ (0xFFE : Word).toNat = (State.reset.setI 0xFFE).i.toNat + (0 : Reg).val :=
  ⟨⟨_, rfl⟩, rfl, by decide, rfl⟩
/-- `DrawFlipsUnderOneBits`, `DrawWritesNoRegister`, `DrawTwiceRestores`: no row with I past memory, one row in the last
byte. -/
theorem witness_draw : (0 : BitVec 4).toNat = 0 ∧ (State.reset.setI 0xFFF).i.toNat + (1 : BitVec 4).toNat ≤ 4096 ∧
    (∃ t, exec (.drw 0 1 1) (State.reset.setI 0xFFF) = .next t) ∧ ∃ t, exec (.drw 0 1 0) (State.reset.setI 0xFFFF) = .next t :=
  ⟨rfl, by decide, ⟨_, rfl⟩, ⟨_, rfl⟩⟩
/-- `WriteFontPlacesGlyphs`, `LoadProgramIsAllOrNothing`: buffers on both sides of their lengths. -/
theorem witness_buffers : (List.replicate 80 (0 : Byte)).length = 80 ∧ (List.replicate 79 (0 : Byte)).length ≠ 80 ∧
    (List.replicate 2048 (0 : Byte)).length ≤ 2048 ∧ (List.replicate 2049 (0 : Byte)).length > 2048 := by
  simp only [List.length_replicate]; decide

end Sys2Proof.Tests
end

section
/-! PROOF. O5: the decode identities of 30_encoding.md R86. Every identity is the same fact, that a field of a word is put
together from the two fields it is cut into, read at one cut after another. -/

namespace Sys2Proof

/-- A field cut `b` bits from its lower end: the upper part put `b` bits up, and the lower part, make the field, at every
width `m` the parts are put together in. -/
theorem setWidth_extractLsb'_add {v : Nat} (w : BitVec v) (k a b m : Nat) :
    (w.extractLsb' k (a + b)).setWidth m =
      (w.extractLsb' (k + b) a).setWidth m <<< b ||| (w.extractLsb' k b).setWidth m := by
  rw [← BitVec.setWidth_append_eq_shiftLeft_setWidth_or, BitVec.extractLsb'_append_extractLsb'_eq_extractLsb' rfl]

/-- The operation nibble is the quotient by `0x1000` (R70). -/
theorem ofNat_toNat_div_0x1000 (w : Word) :
    BitVec.ofNat 16 (w.toNat / 0x1000) = (w.extractLsb' 12 4).setWidth 16 := by
  apply BitVec.eq_of_toNat_eq
  have hw : w.toNat < 65536 := w.isLt
  simp only [BitVec.toNat_ofNat, BitVec.toNat_setWidth, BitVec.extractLsb'_toNat, Nat.shiftRight_eq_div_pow]
  omega

/-- The register number x, as a number of any width, is the nibble at bit 8. -/
theorem ofNat_fieldX (m : Nat) (w : Word) : BitVec.ofNat m (fieldX w).val = (w.extractLsb' 8 4).setWidth m :=
  BitVec.ofNat_toNat _ _

/-- The register number y, as a number of any width, is the nibble at bit 4. -/
theorem ofNat_fieldY (m : Nat) (w : Word) : BitVec.ofNat m (fieldY w).val = (w.extractLsb' 4 4).setWidth m :=
  BitVec.ofNat_toNat _ _

/-- nn is y and n (R86), at every width. -/
theorem setWidth_fieldNN (m : Nat) (w : Word) :
    (fieldNN w).setWidth m = BitVec.ofNat m (fieldY w).val <<< 4 ||| (fieldN w).setWidth m := by
  rw [ofNat_fieldY]
  exact setWidth_extractLsb'_add w 0 4 4 m

/-- nnn is x and nn (R86), at every width. -/
theorem setWidth_fieldNNN (m : Nat) (w : Word) :
    (fieldNNN w).setWidth m = BitVec.ofNat m (fieldX w).val <<< 8 ||| (fieldNN w).setWidth m := by
  rw [ofNat_fieldX]
  exact setWidth_extractLsb'_add w 0 4 8 m

/-- A word is its operation nibble and nnn. -/
theorem opNibble_or_fieldNNN (w : Word) :
    BitVec.ofNat 16 (w.toNat / 0x1000) <<< 12 ||| (fieldNNN w).setWidth 16 = w := by
  rw [ofNat_toNat_div_0x1000]
  calc (w.extractLsb' 12 4).setWidth 16 <<< 12 ||| (fieldNNN w).setWidth 16
      = (w.extractLsb' 0 16).setWidth 16 := (setWidth_extractLsb'_add w 0 4 12 16).symm
    _ = w := by rw [BitVec.setWidth_eq, BitVec.extractLsb'_eq_self]

/-- The mask of R86 keeps every bit of a 12-bit value. -/
theorem and_0xFFF (b : BitVec 12) : b &&& 0xFFF = b := BitVec.and_allOnes

/-- Settles O5: the word is cut into the operation nibble and nnn, nnn into x and nn, nn into y and n. -/
theorem fieldsMakeTheOpcode : Obligations.FieldsMakeTheOpcode := by
  intro w
  refine ⟨?_, ?_, ?_, and_0xFFF _⟩
  · rw [BitVec.or_assoc, BitVec.or_assoc, ← setWidth_fieldNN, ← setWidth_fieldNNN, opNibble_or_fieldNNN]
  · rw [← setWidth_fieldNN, BitVec.setWidth_eq]
  · rw [and_0xFFF, ← setWidth_fieldNNN, BitVec.setWidth_eq]

end Sys2Proof
end

section
/-! PROOF. The frame of a change: how `State.OnlyChanges` composes, and the frame of the updates of the control flow
family. -/

namespace Sys2Proof.Machine

/-- A frame may be stated with more parts than it needs. -/
theorem State.OnlyChanges.mono {s t : State} {may may' : Part → Prop} (h : s.OnlyChanges t may)
    (hle : ∀ p, may p → may' p) : s.OnlyChanges t may' :=
  fun p hp => h p fun hm => hp (hle p hm)

/-- Two changes in a row keep what both keep. -/
theorem State.OnlyChanges.trans {s t u : State} {may : Part → Prop} (hst : s.OnlyChanges t may)
    (htu : t.OnlyChanges u may) : s.OnlyChanges u may := by
  intro p hp
  have h₁ := hst p hp
  have h₂ := htu p hp
  cases p <;> exact h₂.trans h₁

theorem State.onlyChanges_setPc (s : State) (a : Word) : s.OnlyChanges (s.setPc a) (· = .pc) := by
  intro p hp
  cases p with
  | pc => exact absurd rfl hp
  | _ => rfl

theorem State.onlyChanges_push (s : State) (a : Word) : s.OnlyChanges (s.push a) (· = .stack) := by
  intro p hp
  cases p with
  | stack => exact absurd rfl hp
  | _ => rfl

theorem State.onlyChanges_skipIf (s : State) (c : Bool) : s.OnlyChanges (s.skipIf c) (· = .pc) := by
  rw [State.skipIf_eq]
  exact s.onlyChanges_setPc _

end Sys2Proof.Machine
end

section
/-! PROOF. O24, O25, O28, O29: the jump, the call and the skips of 41_control_flow.md. The four skips are one fact, what
`State.skipIf` does to PC, read at an equality of two bytes or at its negation. -/

namespace Sys2Proof.Machine

/-- PC after a skip: two further when the condition holds, modulo 2^16 (00_scope.md R11). -/
theorem State.skipIf_pc_toNat (s : State) (c : Bool) :
    (s.skipIf c).pc.toNat = (s.pc.toNat + if c then 2 else 0) % 65536 := by
  rw [State.skipIf_eq, State.setPc_pc]
  cases c with
  | false => exact (Nat.mod_eq_of_lt s.pc.isLt).symm
  | true => exact BitVec.toNat_add s.pc 2

theorem exec_jp (nnn : BitVec 12) (s : State) : exec (.jp nnn) s = .next (s.setPc (zext12 nnn)) := rfl

theorem exec_call (nnn : BitVec 12) (s : State) :
    exec (.call nnn) s = .next ((s.push s.pc).setPc (zext12 nnn)) := rfl

theorem exec_seImm (x : Reg) (nn : Byte) (s : State) : exec (.seImm x nn) s = .next (s.skipIf (s.reg x == nn)) := rfl

theorem exec_sneImm (x : Reg) (nn : Byte) (s : State) : exec (.sneImm x nn) s = .next (s.skipIf (s.reg x != nn)) := rfl

theorem exec_seReg (x y : Reg) (s : State) : exec (.seReg x y) s = .next (s.skipIf (s.reg x == s.reg y)) := rfl

theorem exec_sneReg (x y : Reg) (s : State) : exec (.sneReg x y) s = .next (s.skipIf (s.reg x != s.reg y)) := rfl

/-- An instruction that skips on the equality of two bytes (R103, R105). -/
theorem exec_skips_of_eq {i : Instr} {s : State} {a b : Byte} (h : exec i s = .next (s.skipIf (a == b))) :
    ∃ t, exec i s = .next t ∧ s.OnlyChanges t (· = .pc) ∧
      t.pc.toNat = (s.pc.toNat + if a.toNat = b.toNat then 2 else 0) % 65536 := by
  refine ⟨_, h, s.onlyChanges_skipIf _, ?_⟩
  simp only [State.skipIf_pc_toNat, beq_iff_eq, BitVec.toNat_inj]

/-- An instruction that skips on the inequality of two bytes (R104, R106). -/
theorem exec_skips_of_ne {i : Instr} {s : State} {a b : Byte} (h : exec i s = .next (s.skipIf (a != b))) :
    ∃ t, exec i s = .next t ∧ s.OnlyChanges t (· = .pc) ∧
      t.pc.toNat = (s.pc.toNat + if a.toNat = b.toNat then 0 else 2) % 65536 := by
  refine ⟨_, h, s.onlyChanges_skipIf _, ?_⟩
  simp only [State.skipIf_pc_toNat, bne_iff_ne, ite_not, BitVec.toNat_inj]

end Sys2Proof.Machine

namespace Sys2Proof

open Machine

/-- Settles O24: the 12-bit target is PC as it stands, zero extended. -/
theorem jumpSetsPc : Obligations.JumpSetsPc := fun nnn s =>
  ⟨_, exec_jp nnn s, zext12_toNat nnn, s.onlyChanges_setPc _⟩

/-- Settles O25: the push changes the stack, the jump PC, and nothing else is touched. -/
theorem callPushesReturnAddress : Obligations.CallPushesReturnAddress := by
  intro nnn s
  refine ⟨_, exec_call nnn s, zext12_toNat nnn, rfl, ?_⟩
  have hpush : s.OnlyChanges (s.push s.pc) (· ∈ [.pc, .stack]) :=
    (s.onlyChanges_push s.pc).mono (by simp)
  have hjump : (s.push s.pc).OnlyChanges ((s.push s.pc).setPc (zext12 nnn)) (· ∈ [.pc, .stack]) :=
    ((s.push s.pc).onlyChanges_setPc _).mono (by simp)
  exact hpush.trans hjump

/-- Settles O28: both instructions skip on a comparison of V[x] with the literal. -/
theorem skipsOnConstant : Obligations.SkipsOnConstant := fun x nn s =>
  ⟨exec_skips_of_eq (exec_seImm x nn s), exec_skips_of_ne (exec_sneImm x nn s)⟩

/-- Settles O29: both instructions skip on a comparison of V[x] with V[y]. -/
theorem skipsOnRegisters : Obligations.SkipsOnRegisters := fun x y s =>
  ⟨exec_skips_of_eq (exec_seReg x y s), exec_skips_of_ne (exec_sneReg x y s)⟩

end Sys2Proof
end

section
/-! PROOF. O30, O31: transfer, constant add and logic of 42_transfer_logic.md. Each of the six instructions writes one
register and nothing else, VF included; what they differ in is the byte they write. -/

namespace Sys2Proof.Machine

theorem State.onlyChanges_setReg (s : State) (r : Reg) (b : Byte) : s.OnlyChanges (s.setReg r b) (· = .reg r) := by
  intro p hp
  cases p with
  | reg q => exact s.reg_setReg_other b fun hq => hp (congrArg Part.reg hq)
  | _ => rfl

theorem exec_ldImm (x : Reg) (nn : Byte) (s : State) : exec (.ldImm x nn) s = .next (s.setReg x nn) := rfl

theorem exec_addImm (x : Reg) (nn : Byte) (s : State) : exec (.addImm x nn) s = .next (s.setReg x (s.reg x + nn)) := rfl

theorem exec_ldReg (x y : Reg) (s : State) : exec (.ldReg x y) s = .next (s.setReg x (s.reg y)) := rfl

theorem exec_orReg (x y : Reg) (s : State) : exec (.orReg x y) s = .next (s.setReg x (s.reg x ||| s.reg y)) := rfl

theorem exec_andReg (x y : Reg) (s : State) : exec (.andReg x y) s = .next (s.setReg x (s.reg x &&& s.reg y)) := rfl

theorem exec_xorReg (x y : Reg) (s : State) : exec (.xorReg x y) s = .next (s.setReg x (s.reg x ^^^ s.reg y)) := rfl

/-- An instruction that writes one register, whose new value is known bit by bit (R123, R124, R125). -/
theorem exec_setReg_bits {i : Instr} {s : State} {x : Reg} {b : Byte} {bit : Nat → Bool}
    (h : exec i s = .next (s.setReg x b)) (hbit : ∀ k, b.getLsbD k = bit k) :
    ∃ t, exec i s = .next t ∧ s.OnlyChanges t (· = .reg x) ∧ ∀ k, (t.reg x).getLsbD k = bit k := by
  refine ⟨_, h, s.onlyChanges_setReg x b, ?_⟩
  rw [State.reg_setReg_same]
  exact hbit

end Sys2Proof.Machine

namespace Sys2Proof

open Machine

/-- Settles O30: the literal, or the sum modulo 256, is what V[x] reads after the one write. -/
theorem constantLoadAndAdd : Obligations.ConstantLoadAndAdd := by
  intro x nn s
  refine ⟨⟨_, exec_ldImm x nn s, s.reg_setReg_same x nn, s.onlyChanges_setReg x nn⟩,
    ⟨_, exec_addImm x nn s, ?_, s.onlyChanges_setReg x _⟩⟩
  rw [State.reg_setReg_same]
  exact BitVec.toNat_add (s.reg x) nn

/-- Settles O31: the copy is one write of V[y]; the other three write a byte whose bits the library gives. -/
theorem copyAndLogicBitwise : Obligations.CopyAndLogicBitwise := fun x y s =>
  ⟨⟨_, exec_ldReg x y s, s.reg_setReg_same x _, s.onlyChanges_setReg x _⟩,
    exec_setReg_bits (exec_orReg x y s) fun _ => BitVec.getLsbD_or,
    exec_setReg_bits (exec_andReg x y s) fun _ => BitVec.getLsbD_and,
    exec_setReg_bits (exec_xorReg x y s) fun _ => BitVec.getLsbD_xor⟩

end Sys2Proof
end

section
/-! PROOF. O35, O37: the index load and the random byte of 44_index_random.md, each one write and its frame. -/

namespace Sys2Proof.Machine

theorem State.onlyChanges_setI (s : State) (a : Word) : s.OnlyChanges (s.setI a) (· = .i) := by
  intro p hp
  cases p with
  | i => exact absurd rfl hp
  | _ => rfl

theorem exec_ldI (nnn : BitVec 12) (s : State) : exec (.ldI nnn) s = .next (s.setI (zext12 nnn)) := rfl

theorem exec_rnd (x : Reg) (nn : Byte) (s : State) : exec (.rnd x nn) s = .next (s.setReg x (s.rnd &&& nn)) := rfl

/-- A value under a mask has no bit outside the mask. -/
theorem and_and_not_mask {w : Nat} (b mask : BitVec w) : b &&& mask &&& ~~~mask = 0 := by
  rw [BitVec.and_assoc, BitVec.and_not_self]
  exact BitVec.and_zero

end Sys2Proof.Machine

namespace Sys2Proof

open Machine

/-- Settles O35: the 12-bit address is I as it stands, zero extended. -/
theorem setIndexZeroExtends : Obligations.SetIndexZeroExtends := fun nnn s =>
  ⟨_, exec_ldI nnn s, zext12_toNat nnn, s.onlyChanges_setI _⟩

/-- Settles O37: the one write leaves the AND of the step's random byte and the mask, whatever that byte is. -/
theorem randomByteUnderMask : Obligations.RandomByteUnderMask := by
  intro x nn s
  refine ⟨_, exec_rnd x nn s, s.onlyChanges_setReg x _, ?_⟩
  rw [State.reg_setReg_same]
  exact ⟨fun _ => BitVec.getLsbD_and, and_and_not_mask s.rnd nn⟩

end Sys2Proof
end

section
/-! PROOF. O38, O40: the key skips and the timer transfers of 45_keys_timers.md. A key skip is `State.skipIf` on the key
that the low nibble of V[x] selects; a timer transfer is one write, whose frame keeps both accumulators. -/

namespace Sys2Proof.Machine

theorem State.onlyChanges_setDt (s : State) (b : Byte) : s.OnlyChanges (s.setDt b) (· = .dt) := by
  intro p hp
  cases p with
  | dt => exact absurd rfl hp
  | _ => rfl

theorem State.onlyChanges_setSt (s : State) (b : Byte) : s.OnlyChanges (s.setSt b) (· = .st) := by
  intro p hp
  cases p with
  | st => exact absurd rfl hp
  | _ => rfl

/-- The mask of `KEY[V[x] & 0xF]` (R170, R171) as a remainder. -/
theorem State.keyPressed_eq (s : State) (x : Reg) :
    s.keyPressed x = s.key.getLsbD ((s.reg x).toNat % 16) :=
  congrArg s.key.getLsbD (keyIndex_eq (s.reg x))

theorem exec_skp (x : Reg) (s : State) : exec (.skp x) s = .next (s.skipIf (s.keyPressed x)) := rfl

theorem exec_sknp (x : Reg) (s : State) : exec (.sknp x) s = .next (s.skipIf (!s.keyPressed x)) := rfl

theorem exec_ldVxDt (x : Reg) (s : State) : exec (.ldVxDt x) s = .next (s.setReg x s.dt) := rfl

theorem exec_ldDtVx (x : Reg) (s : State) : exec (.ldDtVx x) s = .next (s.setDt (s.reg x)) := rfl

theorem exec_ldStVx (x : Reg) (s : State) : exec (.ldStVx x) s = .next (s.setSt (s.reg x)) := rfl

end Sys2Proof.Machine

namespace Sys2Proof

open Machine

/-- Settles O38: SKP skips on the selected key, SKNP on its negation. -/
theorem keySkips : Obligations.KeySkips := by
  intro x s
  rw [← State.keyPressed_eq]
  refine ⟨⟨_, exec_skp x s, s.onlyChanges_skipIf _, s.skipIf_pc_toNat _⟩,
    ⟨_, exec_sknp x s, s.onlyChanges_skipIf _, ?_⟩⟩
  simp only [State.skipIf_pc_toNat, Bool.not_eq_true', ← Bool.not_eq_true, ite_not]

/-- Settles O40: each transfer is one write of the byte read, into V[x], DT or ST. -/
theorem timerTransfers : Obligations.TimerTransfers := fun x s =>
  ⟨⟨_, exec_ldVxDt x s, s.reg_setReg_same x s.dt, s.onlyChanges_setReg x s.dt⟩,
    ⟨_, exec_ldDtVx x s, s.setDt_dt (s.reg x), s.onlyChanges_setDt (s.reg x)⟩,
    ⟨_, exec_ldStVx x s, s.setSt_st (s.reg x), s.onlyChanges_setSt (s.reg x)⟩⟩

end Sys2Proof
end

section
/-! PROOF. O43: the font address of 46_font_bcd_block.md, one write of I. -/

namespace Sys2Proof.Machine

theorem exec_ldF (x : Reg) (s : State) : exec (.ldF x) s = .next (s.setI (glyphAddr (s.reg x))) := rfl

end Sys2Proof.Machine

namespace Sys2Proof

open Machine

/-- Settles O43: the one write leaves the glyph address, which no byte makes wrap. -/
theorem fontAddress : Obligations.FontAddress := fun x s =>
  ⟨_, exec_ldF x s, glyphAddr_toNat (s.reg x), s.onlyChanges_setI _⟩

end Sys2Proof
end

section
/-! PROOF. O49, O52: the clear and the draw of 47_display.md. Each ends in one write of the framebuffer, whose frame keeps
every register, VF included. -/

namespace Sys2Proof.Machine

theorem State.onlyChanges_setFb (s : State) (d : Display) : s.OnlyChanges (s.setFb d) (∃ r c, · = .pixel r c) := by
  intro p hp
  cases p with
  | pixel r c => exact absurd ⟨r, c, rfl⟩ hp
  | _ => rfl

theorem exec_cls (s : State) : exec .cls s = .next (s.setFb Display.clear) := rfl

theorem exec_drw (x y : Reg) (n : BitVec 4) (s : State) : exec (.drw x y n) s = execDrw x y n s := rfl

/-- A draw that reads no byte outside memory is one write of the framebuffer. -/
theorem exec_drw_inside (x y : Reg) (n : BitVec 4) (s : State) (h : n.toNat = 0 ∨ s.i.toNat + n.toNat ≤ 4096) :
    exec (.drw x y n) s = .next (s.setFb (Display.applySprite (anchorCol (s.reg x)) (anchorRow (s.reg y))
      ((List.range' s.i.toNat n.toNat).map s.byteAt) s.fb)) :=
  (exec_drw x y n s).trans (execDrw_inside x y n s h.symm)

end Sys2Proof.Machine

namespace Sys2Proof

open Machine

/-- Settles O49: the one write leaves the cleared framebuffer. -/
theorem clearScreen : Obligations.ClearScreen := fun s =>
  ⟨_, exec_cls s, Display.pixel_clear, s.onlyChanges_setFb Display.clear⟩

/-- Settles O52: the bytes are read inside memory, so the draw is one write of the framebuffer, which is no register. -/
theorem drawWritesNoRegister : Obligations.DrawWritesNoRegister := fun x y n s h =>
  ⟨_, exec_drw_inside x y n s h, s.setFb_reg _⟩

end Sys2Proof
end

section
/-! PROOF. O21: the writes past memory of 60_exceptions.md section 1. Five instructions can stop; for each of them, when it
does and with which fault is one equivalence, and Fx33 and Fx55 alone stop at a write. -/

namespace Sys2Proof.Machine

/-- The first address past memory of a run that leaves it from `a` on (R222). -/
theorem max_memSize_eq (a : Nat) : max a Config.memSize = if a > 0xFFF then a else 0x1000 := by
  rw [Config.memSize]
  split <;> omega

/-- A run of `k + 1` bytes leaves memory when its last byte does. -/
theorem memSize_lt_add_succ (a k : Nat) : Config.memSize < a + (k + 1) ↔ 0xFFF < a + k := Nat.succ_lt_succ_iff

@[simp] theorem bcdDigits_length (b : Byte) : (bcdDigits b).length = 3 := rfl

/-- When a run of writes stops, and at what. -/
theorem State.writeRun_error_iff {s : State} {a : Nat} {bs : List Byte} {f : Fault} :
    State.writeRun a bs s = .error f ↔
      bs ≠ [] ∧ Config.memSize < a + bs.length ∧ f = .memWriteOutOfBounds (max a Config.memSize) := by
  refine ⟨State.writeRun_inv_error, ?_⟩
  rintro ⟨hbs, hout, rfl⟩
  exact State.writeRun_error bs a s hbs hout

/-- When a run of reads stops, and at what. -/
theorem State.readRun_error_iff {s : State} {a n : Nat} {f : Fault} :
    s.readRun a n = .error f ↔
      n ≠ 0 ∧ Config.memSize < a + n ∧ f = .memReadOutOfBounds (max a Config.memSize) := by
  refine ⟨State.readRun_inv_error, ?_⟩
  rintro ⟨hn, hout, rfl⟩
  exact State.readRun_error s n a hn hout

theorem exec_ret (s : State) : exec .ret s = execRet s := rfl

theorem exec_ldB (x : Reg) (s : State) :
    exec (.ldB x) s = finish (s.writeRun s.i.toNat (bcdDigits (s.reg x))) := rfl

theorem exec_storeRegs (x : Reg) (s : State) :
    exec (.storeRegs x) s = finish (s.writeRun s.i.toNat (s.regsUpTo x)) := rfl

theorem exec_loadRegs (x : Reg) (s : State) : exec (.loadRegs x) s = execLoadRegs x s := rfl

/-- 00EE stops on an empty stack (R224). -/
theorem exec_ret_fault {s : State} {f : Fault} :
    exec .ret s = .fault f ↔ s.stack = [] ∧ f = .stackUnderflow s.instrAddr := by
  rw [exec_ret, execRet, State.pop]
  cases s.stack <;> simp [eq_comm]

/-- Dxyn stops at a read (R223). -/
theorem exec_drw_fault {x y : Reg} {n : BitVec 4} {s : State} {f : Fault} :
    exec (.drw x y n) s = .fault f ↔
      n.toNat ≠ 0 ∧ Config.memSize < s.i.toNat + n.toNat ∧ f = .memReadOutOfBounds (max s.i.toNat Config.memSize) := by
  rw [← State.readRun_error_iff (s := s), exec_drw, execDrw]
  cases s.readRun s.i.toNat n.toNat <;> simp

/-- Fx65 stops at a read (R223). -/
theorem exec_loadRegs_fault {x : Reg} {s : State} {f : Fault} :
    exec (.loadRegs x) s = .fault f ↔
      0xFFF < s.i.toNat + x.val ∧ f = .memReadOutOfBounds (max s.i.toNat Config.memSize) := by
  have hrun : s.readRun s.i.toNat (x.val + 1) = .error f ↔ _ := State.readRun_error_iff
  rw [memSize_lt_add_succ, and_iff_right (Nat.succ_ne_zero _)] at hrun
  rw [← hrun, exec_loadRegs, execLoadRegs]
  cases s.readRun s.i.toNat (x.val + 1) <;> simp

/-- Fx33 stops at a write, when its three bytes do not fit (R222). -/
theorem exec_ldB_fault {x : Reg} {s : State} {f : Fault} :
    exec (.ldB x) s = .fault f ↔
      0xFFD < s.i.toNat ∧ f = .memWriteOutOfBounds (max s.i.toNat Config.memSize) := by
  have hne : bcdDigits (s.reg x) ≠ [] := List.cons_ne_nil _ _
  have hout : Config.memSize < s.i.toNat + 3 ↔ 0xFFD < s.i.toNat := by rw [memSize_lt_add_succ]; omega
  rw [exec_ldB, finish_fault, State.writeRun_error_iff, bcdDigits_length, hout, and_iff_right hne]

/-- Fx55 stops at a write, when its x + 1 bytes do not fit (R222). -/
theorem exec_storeRegs_fault {x : Reg} {s : State} {f : Fault} :
    exec (.storeRegs x) s = .fault f ↔
      0xFFF < s.i.toNat + x.val ∧ f = .memWriteOutOfBounds (max s.i.toNat Config.memSize) := by
  have hne : s.regsUpTo x ≠ [] := List.ne_nil_of_length_eq_add_one (s.regsUpTo_length x)
  rw [exec_storeRegs, finish_fault, State.writeRun_error_iff, State.regsUpTo_length, memSize_lt_add_succ,
    and_iff_right hne]

/-- The instructions that can stop. -/
theorem exec_fault_cases {i : Instr} {s : State} {f : Fault} (h : exec i s = .fault f) :
    i = .ret ∨ (∃ x y n, i = .drw x y n) ∨ (∃ x, i = .loadRegs x) ∨ (∃ x, i = .ldB x) ∨ ∃ x, i = .storeRegs x := by
  cases i with
  | ret => exact .inl rfl
  | drw x y n => exact .inr (.inl ⟨x, y, n, rfl⟩)
  | loadRegs x => exact .inr (.inr (.inl ⟨x, rfl⟩))
  | ldB x => exact .inr (.inr (.inr (.inl ⟨x, rfl⟩)))
  | storeRegs x => exact .inr (.inr (.inr (.inr ⟨x, rfl⟩)))
  | _ => cases h

end Sys2Proof.Machine

namespace Sys2Proof

open Machine

/-- Settles O21: of the five instructions that can stop, 00EE underflows, Dxyn and Fx65 stop at a read, and Fx33 and Fx55
stop at a write exactly when their bytes do not fit. -/
theorem writeFaultsExactly : Obligations.WriteFaultsExactly := by
  intro i s a
  rw [← max_memSize_eq]
  constructor
  · intro h
    rcases exec_fault_cases h with rfl | ⟨x, y, n, rfl⟩ | ⟨x, rfl⟩ | ⟨x, rfl⟩ | ⟨x, rfl⟩
    · cases (exec_ret_fault.mp h).2
    · cases (exec_drw_fault.mp h).2.2
    · cases (exec_loadRegs_fault.mp h).2
    · obtain ⟨hout, hf⟩ := exec_ldB_fault.mp h
      exact ⟨.inl ⟨x, rfl, hout⟩, Fault.memWriteOutOfBounds.inj hf⟩
    · obtain ⟨hout, hf⟩ := exec_storeRegs_fault.mp h
      exact ⟨.inr ⟨x, rfl, hout⟩, Fault.memWriteOutOfBounds.inj hf⟩
  · rintro ⟨⟨x, rfl, hout⟩ | ⟨x, rfl, hout⟩, rfl⟩
    · exact exec_ldB_fault.mpr ⟨hout, rfl⟩
    · exact exec_storeRegs_fault.mpr ⟨hout, rfl⟩

end Sys2Proof
end

section
/-! PROOF. O56: the view of `get_state` (60_exceptions.md R241), read register by register, pixel by pixel and byte by
byte. -/

namespace Sys2Proof.Machine

@[simp] theorem State.view_reg (s : State) (r : Reg) : s.view.v[r] = s.reg r := rfl

@[simp] theorem State.view_pixel (s : State) (r c : Nat) : Display.pixel s.view.fb r c = s.pixel r c := rfl

@[simp] theorem State.view_byteAt (s : State) (a : Nat) : Memory.byteAt a s.view.mem = s.byteAt a := rfl

end Sys2Proof.Machine

namespace Sys2Proof

open Machine

/-- Settles O56: the transaction answers `State.view` and keeps the state; each piece of the view is the state's. -/
theorem getStateShowsTheMachine : Obligations.GetStateShowsTheMachine := fun s wreck =>
  ⟨s.view, transact_getState wreck s, s.view_reg, s.view_pc, s.view_i, s.view_stack, s.view_dt, s.view_st, s.view_key,
    s.view_pixel, s.view_byteAt⟩

end Sys2Proof
end

section
/-! PROOF. O1, O2, O3, O4, O6: the opcode table of 30_encoding.md section 4. Two rows whose values differ under both masks
share no word; so the row found first is the only one, and `decodeWord` is the table read in either direction. -/

namespace Sys2Proof

/-! ### One row for a word (R75) -/

/-- Any two rows of the table differ in a bit that both masks keep. -/
theorem opcodeTable_pairwise :
    opcodeTable.Pairwise fun r q => r.value &&& q.mask ≠ q.value &&& r.mask := by decide

/-- Two rows that recognise one word agree in the bits that both masks keep. -/
theorem OpcodeRow.value_and_mask_comm {r q : OpcodeRow} {w : Word} (hr : r.recognises w = true)
    (hq : q.recognises w = true) : r.value &&& q.mask = q.value &&& r.mask := by
  rw [← eq_of_beq hr, ← eq_of_beq hq, BitVec.and_assoc, BitVec.and_comm r.mask, ← BitVec.and_assoc]

/-- Settles O3: two rows that recognise a word would agree where both masks keep a bit, and no two rows do. -/
theorem noWordMatchesTwoRows : Obligations.NoWordMatchesTwoRows := by
  intro w j k r q hj hk hr hq
  obtain ⟨hj', rfl⟩ := List.getElem?_eq_some_iff.mp hj
  obtain ⟨hk', rfl⟩ := List.getElem?_eq_some_iff.mp hk
  have apart := List.pairwise_iff_getElem.mp opcodeTable_pairwise
  rcases Nat.lt_trichotomy j k with h | h | h
  · exact absurd (OpcodeRow.value_and_mask_comm hr hq) (apart j k hj' hk' h)
  · exact h
  · exact absurd (OpcodeRow.value_and_mask_comm hq hr) (apart k j hk' hj' h)

/-- The row that recognises a word is the one dispatch finds. -/
theorem find?_opcodeTable {r : OpcodeRow} {w : Word} (hr : r ∈ opcodeTable) (hw : r.recognises w = true) :
    opcodeTable.find? (·.recognises w) = some r := by
  have hsome : (opcodeTable.find? (·.recognises w)).isSome := List.find?_isSome.mpr ⟨r, hr, hw⟩
  obtain ⟨q, hq⟩ := Option.isSome_iff_exists.mp hsome
  obtain ⟨j, hj⟩ := List.mem_iff_getElem?.mp hr
  obtain ⟨k, hk⟩ := List.mem_iff_getElem?.mp (List.mem_of_find?_eq_some hq)
  have hqw : q.recognises w = true := List.find?_some (p := (OpcodeRow.recognises · w)) hq
  have hjk : j = k := noWordMatchesTwoRows w j k r q hj hk hw hqw
  rw [hq, ← hk, ← hjk, hj]

/-- A word decodes to what the row that recognises it builds (R74). -/
theorem decodeWord_eq_ok {w : Word} {i : Instr} :
    decodeWord w = .ok i ↔ ∃ r ∈ opcodeTable, r.recognises w = true ∧ r.build w = i := by
  constructor
  · intro h
    unfold decodeWord at h
    split at h
    · rename_i r hr
      exact ⟨r, List.mem_of_find?_eq_some hr, List.find?_some (p := (OpcodeRow.recognises · w)) hr, Except.ok.inj h⟩
    · cases h
  · rintro ⟨r, hr, hw, rfl⟩
    rw [decodeWord, find?_opcodeTable hr hw]

/-- A word is unsupported when no row recognises it (R78). -/
theorem decodeWord_eq_error {w : Word} :
    decodeWord w = .error (.unsupportedOpcode w) ↔ ∀ r ∈ opcodeTable, ¬ r.recognises w = true := by
  rw [← List.find?_eq_none, decodeWord]
  cases opcodeTable.find? (·.recognises w) <;> simp

/-! ### Decode of encode -/

/-- Every instruction's word is recognised by a row that builds the instruction. -/
theorem rowMatch (i : Instr) : Laws.RowMatch.Statement i := by
  cases i with
  | cls => exact Laws.RowMatch.cls
  | ret => exact Laws.RowMatch.ret
  | jp nnn => exact Laws.RowMatch.jp nnn
  | call nnn => exact Laws.RowMatch.call nnn
  | seImm x nn => exact Laws.RowMatch.seImm x nn
  | sneImm x nn => exact Laws.RowMatch.sneImm x nn
  | seReg x y => exact Laws.RowMatch.seReg x y
  | ldImm x nn => exact Laws.RowMatch.ldImm x nn
  | addImm x nn => exact Laws.RowMatch.addImm x nn
  | ldReg x y => exact Laws.RowMatch.ldReg x y
  | orReg x y => exact Laws.RowMatch.orReg x y
  | andReg x y => exact Laws.RowMatch.andReg x y
  | xorReg x y => exact Laws.RowMatch.xorReg x y
  | addReg x y => exact Laws.RowMatch.addReg x y
  | subReg x y => exact Laws.RowMatch.subReg x y
  | shr x y => exact Laws.RowMatch.shr x y
  | subnReg x y => exact Laws.RowMatch.subnReg x y
  | shl x y => exact Laws.RowMatch.shl x y
  | sneReg x y => exact Laws.RowMatch.sneReg x y
  | ldI nnn => exact Laws.RowMatch.ldI nnn
  | jpV0 nnn => exact Laws.RowMatch.jpV0 nnn
  | rnd x nn => exact Laws.RowMatch.rnd x nn
  | drw x y n => exact Laws.RowMatch.drw x y n
  | skp x => exact Laws.RowMatch.skp x
  | sknp x => exact Laws.RowMatch.sknp x
  | ldVxDt x => exact Laws.RowMatch.ldVxDt x
  | ldVxK x => exact Laws.RowMatch.ldVxK x
  | ldDtVx x => exact Laws.RowMatch.ldDtVx x
  | ldStVx x => exact Laws.RowMatch.ldStVx x
  | addI x => exact Laws.RowMatch.addI x
  | ldF x => exact Laws.RowMatch.ldF x
  | ldB x => exact Laws.RowMatch.ldB x
  | storeRegs x => exact Laws.RowMatch.storeRegs x
  | loadRegs x => exact Laws.RowMatch.loadRegs x

@[simp] theorem decodeWord_encode (i : Instr) : decodeWord (encode i) = .ok i := decodeWord_eq_ok.mpr (rowMatch i)

/-- Settles O1: the two bytes make the word again, and the row that recognises the word builds the instruction. -/
theorem decodeInvertsEncode : Obligations.DecodeInvertsEncode := by
  intro i rest
  rw [encodeBytes, List.cons_append, List.cons_append, List.nil_append, decode, wordOfBytes_bytes, decodeWord_encode]

/-- Settles O6: each word written out is the encoding of its instruction. -/
theorem writtenOutWordsDecode : Obligations.WrittenOutWordsDecode :=
  ⟨decodeWord_encode .cls, decodeWord_encode (.jp 0x234), decodeWord_encode (.ldImm 0xA 0xFF),
    decodeWord_encode (.shl 1 2), decodeWord_encode (.drw 15 15 0), decodeWord_encode (.ldVxK 1)⟩

/-! ### Encode of decode: the masked word fixes what the mask keeps, the fields are the rest (R76) -/

theorem formNNN_fields (w : Word) : formNNN (w.extractLsb' 12 4) (fieldNNN w) = w := by
  rw [formNNN, nibbleAt, ← ofNat_toNat_div_0x1000, opNibble_or_fieldNNN]

/-- A register number put at bit `k` of a word. -/
theorem nibbleAt_regBits (k : Nat) (r : Reg) : nibbleAt k (regBits r) = BitVec.ofNat 16 r.val <<< k := by
  rw [nibbleAt, regBits, BitVec.setWidth_ofNat_of_le_of_lt (by decide) r.isLt]

theorem formXNN_fields (w : Word) : formXNN (w.extractLsb' 12 4) (fieldX w) (fieldNN w) = w := by
  rw [formXNN, nibbleAt_regBits, BitVec.or_assoc, ← setWidth_fieldNNN]
  exact formNNN_fields w

theorem formXYN_fields (w : Word) : formXYN (w.extractLsb' 12 4) (fieldX w) (fieldY w) (fieldN w) = w := by
  have hn : nibbleAt 0 (fieldN w) = (fieldN w).setWidth 16 := BitVec.shiftLeft_zero _
  rw [formXYN, nibbleAt_regBits 4, hn, BitVec.or_assoc, ← setWidth_fieldNN]
  exact formXNN_fields w

theorem and_0xFFFF (w : Word) : w &&& 0xFFFF = w := BitVec.and_allOnes

/-- What the mask F000 keeps. -/
theorem op_of_and_F000 {w : Word} {op : BitVec 4} (h : w &&& 0xF000 = nibbleAt 12 op) : w.extractLsb' 12 4 = op := by
  have hform : ∀ a : BitVec 4, nibbleAt 12 a = formNNN a 0 := fun a => by simp [formNNN]
  rw [and_F000, hform, hform] at h
  simpa only [formNNN_op] using congrArg (·.extractLsb' 12 4) h

/-- What the mask F00F keeps. -/
theorem op_n_of_and_F00F {w : Word} {op n : BitVec 4} (h : w &&& 0xF00F = nibbleAt 12 op ||| nibbleAt 0 n) :
    w.extractLsb' 12 4 = op ∧ fieldN w = n := by
  have hform : ∀ a b : BitVec 4, nibbleAt 12 a ||| nibbleAt 0 b = formXYN a 0 0 b :=
    fun a b => by simp [formXYN, nibbleAt, regBits]
  rw [and_F00F, hform, hform] at h
  exact ⟨by simpa only [formXYN_op] using congrArg (·.extractLsb' 12 4) h,
    (fieldN_formXYN ..).symm.trans ((congrArg fieldN h).trans (fieldN_formXYN ..))⟩

/-- What the mask F0FF keeps. -/
theorem op_nn_of_and_F0FF {w : Word} {op : BitVec 4} {nn : Byte}
    (h : w &&& 0xF0FF = nibbleAt 12 op ||| nn.setWidth 16) : w.extractLsb' 12 4 = op ∧ fieldNN w = nn := by
  have hform : ∀ (a : BitVec 4) (b : Byte), nibbleAt 12 a ||| b.setWidth 16 = formXNN a 0 b :=
    fun a b => by simp [formXNN, nibbleAt, regBits]
  rw [and_F0FF, hform, hform] at h
  exact ⟨by simpa only [formXNN_op] using congrArg (·.extractLsb' 12 4) h,
    (fieldNN_formXNN ..).symm.trans ((congrArg fieldNN h).trans (fieldNN_formXNN ..))⟩

/-- The row loses no bit: what it builds from a word it recognises encodes to the word. -/
def OpcodeRow.LosesNoBit (r : OpcodeRow) : Prop := ∀ w, r.recognises w = true → encode (r.build w) = w

section
variable {build : Word → Instr} {value : Word}

/-- A row of format NNN: the mask keeps the operation nibble. -/
theorem OpcodeRow.losesNoBit_NNN (op : BitVec 4) (hv : value = nibbleAt 12 op)
    (h : ∀ w, encode (build w) = formNNN op (fieldNNN w)) : OpcodeRow.LosesNoBit ⟨0xF000, value, build⟩ := by
  intro w hw
  have hop := op_of_and_F000 ((eq_of_beq hw).trans hv)
  rw [h, ← hop, formNNN_fields]

/-- A row of format XNN: the mask keeps the operation nibble. -/
theorem OpcodeRow.losesNoBit_XNN (op : BitVec 4) (hv : value = nibbleAt 12 op)
    (h : ∀ w, encode (build w) = formXNN op (fieldX w) (fieldNN w)) :
    OpcodeRow.LosesNoBit ⟨0xF000, value, build⟩ := by
  intro w hw
  have hop := op_of_and_F000 ((eq_of_beq hw).trans hv)
  rw [h, ← hop, formXNN_fields]

/-- A row of format XYN: the mask keeps the operation nibble. -/
theorem OpcodeRow.losesNoBit_XYN (op : BitVec 4) (hv : value = nibbleAt 12 op)
    (h : ∀ w, encode (build w) = formXYN op (fieldX w) (fieldY w) (fieldN w)) :
    OpcodeRow.LosesNoBit ⟨0xF000, value, build⟩ := by
  intro w hw
  have hop := op_of_and_F000 ((eq_of_beq hw).trans hv)
  rw [h, ← hop, formXYN_fields]

/-- A row of format XY: the mask keeps the operation nibble and the lowest one. -/
theorem OpcodeRow.losesNoBit_XY (op n : BitVec 4) (hv : value = nibbleAt 12 op ||| nibbleAt 0 n)
    (h : ∀ w, encode (build w) = formXYN op (fieldX w) (fieldY w) n) :
    OpcodeRow.LosesNoBit ⟨0xF00F, value, build⟩ := by
  intro w hw
  obtain ⟨hop, hn⟩ := op_n_of_and_F00F ((eq_of_beq hw).trans hv)
  rw [h, ← hop, ← hn, formXYN_fields]

/-- A row of format X: the mask keeps the operation nibble and the low byte. -/
theorem OpcodeRow.losesNoBit_X (op : BitVec 4) (nn : Byte) (hv : value = nibbleAt 12 op ||| nn.setWidth 16)
    (h : ∀ w, encode (build w) = formXNN op (fieldX w) nn) : OpcodeRow.LosesNoBit ⟨0xF0FF, value, build⟩ := by
  intro w hw
  obtain ⟨hop, hnn⟩ := op_nn_of_and_F0FF ((eq_of_beq hw).trans hv)
  rw [h, ← hop, ← hnn, formXNN_fields]

/-- A row of one word: the mask keeps every bit. -/
theorem OpcodeRow.losesNoBit_word (h : ∀ w, encode (build w) = value) :
    OpcodeRow.LosesNoBit ⟨0xFFFF, value, build⟩ := by
  intro w hw
  rw [h, ← and_0xFFFF w]
  exact (eq_of_beq hw).symm

end

/-- No row of the table loses a bit, the ignored y of the shifts included. -/
theorem opcodeTable_losesNoBit : ∀ r ∈ opcodeTable, r.LosesNoBit :=
  List.forall_iff_forall_mem.mp
    ⟨OpcodeRow.losesNoBit_word fun _ => rfl,
     OpcodeRow.losesNoBit_word fun _ => rfl,
     OpcodeRow.losesNoBit_NNN 0x1 rfl fun _ => rfl,
     OpcodeRow.losesNoBit_NNN 0x2 rfl fun _ => rfl,
     OpcodeRow.losesNoBit_XNN 0x3 rfl fun _ => rfl,
     OpcodeRow.losesNoBit_XNN 0x4 rfl fun _ => rfl,
     OpcodeRow.losesNoBit_XY 0x5 0x0 rfl fun _ => rfl,
     OpcodeRow.losesNoBit_XNN 0x6 rfl fun _ => rfl,
     OpcodeRow.losesNoBit_XNN 0x7 rfl fun _ => rfl,
     OpcodeRow.losesNoBit_XY 0x8 0x0 rfl fun _ => rfl,
     OpcodeRow.losesNoBit_XY 0x8 0x1 rfl fun _ => rfl,
     OpcodeRow.losesNoBit_XY 0x8 0x2 rfl fun _ => rfl,
     OpcodeRow.losesNoBit_XY 0x8 0x3 rfl fun _ => rfl,
     OpcodeRow.losesNoBit_XY 0x8 0x4 rfl fun _ => rfl,
     OpcodeRow.losesNoBit_XY 0x8 0x5 rfl fun _ => rfl,
     OpcodeRow.losesNoBit_XY 0x8 0x6 rfl fun _ => rfl,
     OpcodeRow.losesNoBit_XY 0x8 0x7 rfl fun _ => rfl,
     OpcodeRow.losesNoBit_XY 0x8 0xE rfl fun _ => rfl,
     OpcodeRow.losesNoBit_XY 0x9 0x0 rfl fun _ => rfl,
     OpcodeRow.losesNoBit_NNN 0xA rfl fun _ => rfl,
     OpcodeRow.losesNoBit_NNN 0xB rfl fun _ => rfl,
     OpcodeRow.losesNoBit_XNN 0xC rfl fun _ => rfl,
     OpcodeRow.losesNoBit_XYN 0xD rfl fun _ => rfl,
     OpcodeRow.losesNoBit_X 0xE 0x9E rfl fun _ => rfl,
     OpcodeRow.losesNoBit_X 0xE 0xA1 rfl fun _ => rfl,
     OpcodeRow.losesNoBit_X 0xF 0x07 rfl fun _ => rfl,
     OpcodeRow.losesNoBit_X 0xF 0x0A rfl fun _ => rfl,
     OpcodeRow.losesNoBit_X 0xF 0x15 rfl fun _ => rfl,
     OpcodeRow.losesNoBit_X 0xF 0x18 rfl fun _ => rfl,
     OpcodeRow.losesNoBit_X 0xF 0x1E rfl fun _ => rfl,
     OpcodeRow.losesNoBit_X 0xF 0x29 rfl fun _ => rfl,
     OpcodeRow.losesNoBit_X 0xF 0x33 rfl fun _ => rfl,
     OpcodeRow.losesNoBit_X 0xF 0x55 rfl fun _ => rfl,
     OpcodeRow.losesNoBit_X 0xF 0x65 rfl fun _ => rfl⟩

/-- Settles O2: the row that built the instruction loses no bit of the word. -/
theorem encodeInvertsDecode : Obligations.EncodeInvertsDecode := by
  intro w i h
  obtain ⟨r, hr, hw, rfl⟩ := decodeWord_eq_ok.mp h
  exact opcodeTable_losesNoBit r hr w hw

/-! ### The words no row recognises (R79) -/

theorem toNat_extract_op (w : Word) : (w.extractLsb' 12 4).toNat = w.toNat / 0x1000 := by
  have hw : w.toNat < 65536 := w.isLt
  rw [BitVec.extractLsb'_toNat, Nat.shiftRight_eq_div_pow]
  omega

/-- A nibble above a lower field, as a number. -/
theorem toNat_nibbleAt_or {k : Nat} (hk : k ≤ 12) (op : BitVec 4) (b : BitVec k) :
    (nibbleAt 12 op ||| b.setWidth 16).toNat = 0x1000 * op.toNat + b.toNat := by
  have hb : b.toNat < 2 ^ 12 := b.isLt.trans_le (Nat.pow_le_pow_right (by decide) hk)
  have hop := op.isLt
  have hlow : (b.setWidth 16).toNat = b.toNat := by
    rw [BitVec.toNat_setWidth, Nat.mod_eq_of_lt (by omega)]
  have hhigh : (nibbleAt 12 op).toNat = op.toNat <<< 12 := by
    rw [nibbleAt, BitVec.toNat_shiftLeft, BitVec.toNat_setWidth, Nat.shiftLeft_eq, Nat.shiftLeft_eq]
    omega
  rw [BitVec.toNat_or, hlow, hhigh, ← Nat.shiftLeft_add_eq_or_of_lt hb, Nat.shiftLeft_eq]
  omega

theorem toNat_and_F000 (w : Word) : (w &&& 0xF000).toNat = 0x1000 * (w.toNat / 0x1000) := by
  rw [and_F000, ← toNat_extract_op, ← BitVec.or_zero (x := nibbleAt 12 _)]
  exact toNat_nibbleAt_or (k := 12) (by decide) _ 0

theorem toNat_and_F00F (w : Word) : (w &&& 0xF00F).toNat = 0x1000 * (w.toNat / 0x1000) + w.toNat % 16 := by
  have hn : nibbleAt 0 (w.extractLsb' 0 4) = (w.extractLsb' 0 4).setWidth 16 := BitVec.shiftLeft_zero _
  rw [and_F00F, hn, toNat_nibbleAt_or (by decide), toNat_extract_op]
  rfl

theorem toNat_and_F0FF (w : Word) : (w &&& 0xF0FF).toNat = 0x1000 * (w.toNat / 0x1000) + w.toNat % 256 := by
  rw [and_F0FF, toNat_nibbleAt_or (by decide), toNat_extract_op]
  rfl

/-- Mask F000 recognises a word by its operation nibble. -/
theorem and_F000_eq (w v : Word) :
    w &&& 0xF000 = v ↔ w.toNat / 0x1000 = v.toNat / 0x1000 ∧ v.toNat % 0x1000 = 0 := by
  rw [← BitVec.toNat_inj, toNat_and_F000]; omega

/-- Mask F00F recognises a word by its operation nibble and its lowest one. -/
theorem and_F00F_eq (w v : Word) :
    w &&& 0xF00F = v ↔ w.toNat / 0x1000 = v.toNat / 0x1000 ∧ w.toNat % 16 = v.toNat % 0x1000 := by
  rw [← BitVec.toNat_inj, toNat_and_F00F]; omega

/-- Mask F0FF recognises a word by its operation nibble and its low byte. -/
theorem and_F0FF_eq (w v : Word) :
    w &&& 0xF0FF = v ↔ w.toNat / 0x1000 = v.toNat / 0x1000 ∧ w.toNat % 256 = v.toNat % 0x1000 := by
  rw [← BitVec.toNat_inj, toNat_and_F0FF]; omega

/-- Settles O4: every row recognises a word by the numbers its mask keeps; under each operation nibble, the numbers no row
takes are the range listed. -/
theorem unsupportedWordsAreTheListedRanges : Obligations.UnsupportedWordsAreTheListedRanges := by
  intro w
  have hop : w.toNat / 0x1000 < 16 := by have hw : w.toNat < 65536 := w.isLt; omega
  have hword : ∀ v, w = v ↔ w.toNat = v.toNat := fun _ => BitVec.toNat_inj.symm
  rw [decodeWord_eq_error]
  simp only [opcodeTable, opcodeTableLow, opcodeTableHigh, List.cons_append, List.nil_append, List.forall_mem_cons,
    OpcodeRow.recognises, beq_iff_eq, and_F000_eq, and_F00F_eq, and_F0FF_eq, and_0xFFFF, hword, ne_eq,
    BitVec.reduceToNat, Nat.reduceDiv, Nat.reduceMod, and_true]
  interval_cases hq : w.toNat / 0x1000 <;> simp <;> omega

end Sys2Proof
end

section
/-! PROOF. O32, O33, O34, O36: the flag writers of 10_state.md R31. Five of them end in `State.setRegAndFlag`, and differ in
the byte and the flag they hand it; the sixth writes I and then VF. -/

namespace Sys2Proof.Machine

/-- VF is written last (D11), so it holds the flag. -/
@[simp] theorem State.setRegAndFlag_VF (s : State) (x : Reg) (result : Byte) (flag : Bool) :
    (s.setRegAndFlag x result flag).reg VF = if flag then 1 else 0 := by
  rw [State.reg_setRegAndFlag, if_pos rfl]

theorem State.setRegAndFlag_dest (s : State) {x : Reg} (result : Byte) (flag : Bool) (hx : x ≠ VF) :
    (s.setRegAndFlag x result flag).reg x = result := by
  rw [State.reg_setRegAndFlag, if_neg hx, if_pos rfl]

theorem State.onlyChanges_setRegAndFlag (s : State) (x : Reg) (result : Byte) (flag : Bool) :
    s.OnlyChanges (s.setRegAndFlag x result flag) (· ∈ [.reg x, .reg VF]) := by
  have hdest : s.OnlyChanges (s.setReg x result) (· ∈ [.reg x, .reg VF]) :=
    (s.onlyChanges_setReg x result).mono (by simp)
  exact hdest.trans (((s.setReg x result).onlyChanges_setReg VF _).mono (by simp))

/-- A flag in a register, as a number. -/
theorem toNat_flag (flag : Bool) : (if flag then 1 else 0 : Byte).toNat = flag.toNat := by cases flag <;> rfl

/-- A flagged result, read as numbers. -/
theorem State.setRegAndFlag_spec (s : State) (x : Reg) {result : Byte} {flag : Bool} {n k : Nat}
    (hresult : result.toNat = n) (hflag : flag.toNat = k) :
    (x ≠ VF → ((s.setRegAndFlag x result flag).reg x).toNat = n) ∧
    ((s.setRegAndFlag x result flag).reg VF).toNat = k ∧
    s.OnlyChanges (s.setRegAndFlag x result flag) (· ∈ [.reg x, .reg VF]) := by
  refine ⟨fun hx => ?_, ?_, s.onlyChanges_setRegAndFlag x result flag⟩
  · rw [s.setRegAndFlag_dest result flag hx, hresult]
  · rw [State.setRegAndFlag_VF, toNat_flag, hflag]

/-! ### The results and the flags as numbers (43_flagged_arith_shift.md) -/

/-- A flag given by a test, as a number. -/
theorem toNat_decide (p : Prop) [Decidable p] : (decide p).toNat = if p then 1 else 0 := by
  by_cases h : p <;> simp [h]

theorem addResult_toNat (a b : Byte) : (addResult a b).toNat = (a.toNat + b.toNat) % 256 := BitVec.toNat_ofNat _ _

theorem carryFlag_toNat (a b : Byte) : (carryFlag a b).toNat = if a.toNat + b.toNat > 255 then 1 else 0 :=
  toNat_decide _

theorem subResult_toNat (a b : Byte) : (subResult a b).toNat = (256 + a.toNat - b.toNat) % 256 := by
  have hb : b.toNat < 256 := b.isLt
  rw [subResult, BitVec.toNat_sub]
  congr 1
  omega

theorem notBorrowFlag_toNat (a b : Byte) : (notBorrowFlag a b).toNat = if b.toNat > a.toNat then 0 else 1 := by
  rw [notBorrowFlag, ← decide_not, toNat_decide, ite_not]

theorem shrResult_toNat (a : Byte) : (shrResult a).toNat = a.toNat / 2 := BitVec.toNat_ushiftRight a 1

theorem shrFlag_toNat (a : Byte) : (shrFlag a).toNat = a.toNat % 2 := by
  rw [shrFlag, BitVec.getLsbD, Nat.toNat_testBit, pow_zero, Nat.div_one]

theorem shlResult_toNat (a : Byte) : (shlResult a).toNat = 2 * a.toNat % 256 := by
  rw [shlResult, BitVec.toNat_shiftLeft, Nat.shiftLeft_eq, mul_comm]

theorem shlFlag_toNat (a : Byte) : (shlFlag a).toNat = a.toNat / 128 := by
  have ha : a.toNat < 256 := a.isLt
  rw [shlFlag, BitVec.getLsbD, Nat.toNat_testBit]
  omega

theorem rangeFlag_toNat (a : Word) : (rangeFlag a).toNat = if a.toNat > 0xFFF then 1 else 0 := toNat_decide _

theorem State.indexPlus_toNat (s : State) (x : Reg) :
    (s.indexPlus x).toNat = (s.i.toNat + (s.reg x).toNat) % 65536 := by
  rw [State.indexPlus, BitVec.toNat_add, zext8_toNat]

/-! ### The instructions -/

theorem exec_addReg (x y : Reg) (s : State) : exec (.addReg x y) s =
    .next (s.setRegAndFlag x (addResult (s.reg x) (s.reg y)) (carryFlag (s.reg x) (s.reg y))) := rfl

theorem exec_subReg (x y : Reg) (s : State) : exec (.subReg x y) s =
    .next (s.setRegAndFlag x (subResult (s.reg x) (s.reg y)) (notBorrowFlag (s.reg x) (s.reg y))) := rfl

theorem exec_subnReg (x y : Reg) (s : State) : exec (.subnReg x y) s =
    .next (s.setRegAndFlag x (subResult (s.reg y) (s.reg x)) (notBorrowFlag (s.reg y) (s.reg x))) := rfl

theorem exec_shr (x y : Reg) (s : State) : exec (.shr x y) s =
    .next (s.setRegAndFlag x (shrResult (s.reg x)) (shrFlag (s.reg x))) := rfl

theorem exec_shl (x y : Reg) (s : State) : exec (.shl x y) s =
    .next (s.setRegAndFlag x (shlResult (s.reg x)) (shlFlag (s.reg x))) := rfl

theorem exec_addI (x : Reg) (s : State) : exec (.addI x) s =
    .next ((s.setI (s.indexPlus x)).setReg VF (if rangeFlag (s.indexPlus x) then 1 else 0)) := rfl

end Sys2Proof.Machine

namespace Sys2Proof

open Machine

/-- Settles O32: the sum and the carry are what `State.setRegAndFlag` is handed. -/
theorem addSetsCarry : Obligations.AddSetsCarry := fun x y s =>
  ⟨_, exec_addReg x y s, s.setRegAndFlag_spec x (addResult_toNat _ _) (carryFlag_toNat _ _)⟩

/-- Settles O33: one difference and one flag, with the operands in either order. -/
theorem subtractSetsNotBorrow : Obligations.SubtractSetsNotBorrow := fun x y s =>
  ⟨⟨_, exec_subReg x y s, s.setRegAndFlag_spec x (subResult_toNat _ _) (notBorrowFlag_toNat _ _)⟩,
    ⟨_, exec_subnReg x y s, s.setRegAndFlag_spec x (subResult_toNat _ _) (notBorrowFlag_toNat _ _)⟩⟩

/-- Settles O34: the half or the double of V[x], and the bit shifted out; V[y] is in neither. -/
theorem shiftsSetBitShiftedOut : Obligations.ShiftsSetBitShiftedOut := by
  intro x y s
  obtain ⟨hr, hrVF, hrest⟩ := s.setRegAndFlag_spec x (shrResult_toNat (s.reg x)) (shrFlag_toNat (s.reg x))
  obtain ⟨hl, hlVF, hlest⟩ := s.setRegAndFlag_spec x (shlResult_toNat (s.reg x)) (shlFlag_toNat (s.reg x))
  exact ⟨⟨_, exec_shr x y s, hr, hrVF, hrest, fun y' => exec_shr x y' s⟩,
    ⟨_, exec_shl x y s, hl, hlVF, hlest, fun y' => exec_shl x y' s⟩⟩

/-- Settles O36: the index is computed from V[x] before the one register write, which is VF's. -/
theorem addToIndexSetsRangeFlag : Obligations.AddToIndexSetsRangeFlag := by
  intro x s
  refine ⟨_, exec_addI x s, s.indexPlus_toNat x, ?_, ?_⟩
  · rw [State.reg_setReg_same, toNat_flag, rangeFlag_toNat, State.indexPlus_toNat]
  · have hindex : s.OnlyChanges (s.setI (s.indexPlus x)) (· ∈ [.i, .reg VF]) :=
      (s.onlyChanges_setI _).mono (by simp)
    exact hindex.trans ((State.onlyChanges_setReg _ VF _).mono (by simp))

end Sys2Proof
end

section
/-! PROOF. O26, O27, O39: the return and the jump with offset of 41_control_flow.md, and the wait for a key of
45_keys_timers.md. -/

namespace Sys2Proof.Machine

theorem State.onlyChanges_setStack (s : State) (l : List Word) : s.OnlyChanges (s.setStack l) (· = .stack) := by
  intro p hp
  cases p with
  | stack => exact absurd rfl hp
  | _ => rfl

/-- A return with an entry on the stack (R102). -/
theorem exec_ret_cons {s : State} {a : Word} {rest : List Word} (h : s.stack = a :: rest) :
    exec .ret s = .next ((s.setStack rest).setPc a) := by
  rw [exec_ret, execRet, State.pop, h]

theorem exec_jpV0 (nnn : BitVec 12) (s : State) :
    exec (.jpV0 nnn) s = .next (s.setPc (s.pc + zext12 nnn + zext8 (s.reg 0))) := rfl

theorem exec_ldVxK (x : Reg) (s : State) :
    exec (.ldVxK x) s = .next (s.setPc (if s.keyPressed x then s.pc else s.pc - 2)) := by
  rw [exec, execLdVxK]
  cases s.keyPressed x <;> rfl

/-- The address two below PC (30_encoding.md R73). -/
theorem State.instrAddr_add_two (s : State) : s.instrAddr + 2 = s.pc := BitVec.sub_add_cancel s.pc 2

end Sys2Proof.Machine

namespace Sys2Proof

open Machine

/-- Settles O26: the top of the stack goes to PC; with no top the return is fatal; a call leaves its PC on top. -/
theorem returnPopsPc : Obligations.ReturnPopsPc := by
  refine ⟨fun s a rest h => ⟨_, exec_ret_cons h, rfl, rfl, ?_⟩,
    fun s h => ⟨s.instrAddr, s.instrAddr_add_two, exec_ret_fault.mpr ⟨h, rfl⟩⟩,
    fun s nnn p => ⟨_, _, exec_call nnn s, exec_ret_cons rfl, rfl, rfl⟩⟩
  have hpop : s.OnlyChanges (s.setStack rest) (· ∈ [.pc, .stack]) := (s.onlyChanges_setStack rest).mono (by simp)
  exact hpop.trans ((State.onlyChanges_setPc _ a).mono (by simp))

/-- Settles O27: two additions modulo 2^16. -/
theorem jumpOffsetAddsToAdvancedPc : Obligations.JumpOffsetAddsToAdvancedPc := by
  intro nnn s
  refine ⟨_, exec_jpV0 nnn s, ?_, s.onlyChanges_setPc _⟩
  rw [State.setPc_pc, BitVec.toNat_add, BitVec.toNat_add, zext12_toNat, zext8_toNat, Nat.mod_add_mod]

/-- Settles O39: PC is the one write, and it is back on the instruction while the selected key is up. -/
theorem getKeyWaits : Obligations.GetKeyWaits := by
  intro x s
  refine ⟨_, exec_ldVxK x s, s.onlyChanges_setPc _, ?_⟩
  rw [State.setPc_pc, State.keyPressed_eq, apply_ite BitVec.toNat, BitVec.toNat_sub, add_comm]
  rfl

end Sys2Proof
end

section
/-! PROOF. O41, O42: the timer countdown of 60_exceptions.md section 2. Both timers follow one arithmetic fact, that whole
periods and what is left of the time add up over two ticks. -/

namespace Sys2Proof.Machine

/-- The periods of two ticks are those of one tick as long as both. -/
theorem periods_add_periods (acc a b : Nat) :
    periods acc a + periods (accAfter acc a) b = periods acc (a + b) := by
  simp only [periods, accAfter, Config.timerPeriod]; omega

/-- What two ticks leave is what one tick as long as both leaves. -/
theorem accAfter_accAfter (acc a b : Nat) : accAfter (accAfter acc a) b = accAfter acc (a + b) := by
  simp only [accAfter, Nat.mod_add_mod, add_assoc]

/-- A tick shorter than one period completes at most one, and that one at `P - acc`. -/
theorem periods_of_lt {acc e : Nat} (hacc : acc < 17000000) (he : e < 17000000) :
    periods acc e = if e < 17000000 - acc then 0 else 1 := by
  simp only [periods, Config.timerPeriod]
  split <;> omega

end Sys2Proof.Machine

namespace Sys2Proof

open Machine

/-- Settles O41: each timer loses the periods of the whole time, and each accumulator keeps what is left of it. -/
theorem timerDecayIsCumulative : Obligations.TimerDecayIsCumulative := by
  intro s a b
  simp only [State.tick, decay_decay, periods_add_periods, accAfter_accAfter]

/-- Settles O42: the load keeps the accumulator, so the first period is complete once `P - acc` has passed. -/
theorem timerSetKeepsAccumulator : Obligations.TimerSetKeepsAccumulator := by
  intro x s e hacc _ he
  refine ⟨_, exec_ldDtVx x s, ?_⟩
  rw [State.tick_dt, decay_toNat, State.setDt_dt, State.setDt_dtAcc, periods_of_lt hacc he]
  split <;> rfl

end Sys2Proof
end

section
/-! PROOF. O44, O45, O46, O47, O48: BCD and block transfer of 46_font_bcd_block.md. A store is one run of writes, a load one
run of reads; the round trip and the fetch of a stored word follow from what the two leave. -/

namespace Sys2Proof.Machine

/-- A run of writes changes the bytes it covers. -/
theorem State.onlyChanges_putRun (s : State) (a : Nat) (bs : List Byte) :
    s.OnlyChanges (s.setMem (Memory.putRun a bs s.mem)) (∃ k, InRun a bs.length k ∧ · = .byte k) := by
  intro p hp
  cases p with
  | byte k =>
    have hk : ¬ (a ≤ k ∧ k < a + bs.length) := fun hk => hp ⟨k, hk, rfl⟩
    exact (Memory.byteAt_putRun bs a k s.mem).trans (dif_neg hk)
  | _ => rfl

/-- The k-th byte of a run of writes. -/
theorem State.byteAt_putRun (s : State) (a : Nat) (bs : List Byte) (k : Nat) (hk : k < bs.length) :
    (s.setMem (Memory.putRun a bs s.mem)).byteAt (a + k) = bs[k] := by
  rw [State.byteAt_setMem, Memory.byteAt_putRun, dif_pos ⟨by omega, by omega⟩]
  simp only [Nat.add_sub_cancel_left]

/-- Registers written from `k` on. -/
theorem State.onlyChanges_setRegsFrom (s : State) (k : Nat) (bs : List Byte) (hk : k + bs.length ≤ 16) :
    s.OnlyChanges (State.setRegsFrom k bs s) (fun p => ∃ r : Reg, InRun k bs.length r.val ∧ p = .reg r) := by
  intro p hp
  obtain ⟨v, hv⟩ := State.setRegsFrom_rest bs k s
  cases p with
  | reg q =>
    have hq : ¬ (k ≤ q.val ∧ q.val < k + bs.length) := fun hq => hp ⟨q, hq, rfl⟩
    exact (State.reg_setRegsFrom bs k s q hk).trans (dif_neg hq)
  | _ => rw [hv]; rfl

/-- Fx33 with its three bytes inside memory. -/
theorem exec_ldB_inside (x : Reg) (s : State) (h : s.i.toNat ≤ 0xFFD) :
    exec (.ldB x) s = .next (s.setMem (Memory.putRun s.i.toNat (bcdDigits (s.reg x)) s.mem)) := by
  rw [exec_ldB, State.writeRun_ok _ _ _ (.inl ?_)]
  · rfl
  · rw [bcdDigits_length, Config.memSize]; omega

/-- Fx55 with its x + 1 bytes inside memory. -/
theorem exec_storeRegs_inside (x : Reg) (s : State) (h : s.i.toNat + x.val ≤ 0xFFF) :
    exec (.storeRegs x) s = .next (s.setMem (Memory.putRun s.i.toNat (s.regsUpTo x) s.mem)) := by
  rw [exec_storeRegs, State.writeRun_ok _ _ _ (.inl ?_)]
  · rfl
  · rw [State.regsUpTo_length, Config.memSize]; omega

/-- Fx65 with its x + 1 bytes inside memory. -/
theorem exec_loadRegs_inside (x : Reg) (s : State) (h : s.i.toNat + x.val ≤ 0xFFF) :
    exec (.loadRegs x) s = .next (State.setRegsFrom 0 ((List.range' s.i.toNat (x.val + 1)).map s.byteAt) s) :=
  execLoadRegs_inside x s (by rw [Config.memSize]; omega)

end Sys2Proof.Machine

namespace Sys2Proof

open Machine

/-- Settles O44: the three digits are one run of writes from I on, inside memory up to I = 0xFFD. -/
theorem bcdStoresDigits : Obligations.BcdStoresDigits := by
  intro x s
  constructor
  · intro h
    have hx : (s.reg x).toNat < 256 := (s.reg x).isLt
    have hbyte := s.byteAt_putRun s.i.toNat (bcdDigits (s.reg x))
    refine ⟨_, exec_ldB_inside x s h, ?_, ?_, ?_, s.onlyChanges_putRun _ _⟩
    · exact (congrArg BitVec.toNat (hbyte 0 (by simp))).trans (Nat.mod_eq_of_lt (by omega))
    · exact (congrArg BitVec.toNat (hbyte 1 (by simp))).trans (Nat.mod_eq_of_lt (by omega))
    · exact (congrArg BitVec.toNat (hbyte 2 (by simp))).trans (Nat.mod_eq_of_lt (by omega))
  · intro h
    rw [← max_memSize_eq]
    exact exec_ldB_fault.mpr ⟨h, rfl⟩

/-- Settles O45: V0 to Vx are one run of writes from I on, inside memory while its last byte is. -/
theorem storeRegistersToMemory : Obligations.StoreRegistersToMemory := by
  intro x s
  constructor
  · intro h
    have hframe := s.onlyChanges_putRun s.i.toNat (s.regsUpTo x)
    rw [State.regsUpTo_length] at hframe
    refine ⟨_, exec_storeRegs_inside x s h, fun r hr => ?_, hframe⟩
    rw [s.byteAt_putRun _ _ r.val (by rw [State.regsUpTo_length]; omega), State.regsUpTo_getElem]
  · intro h
    rw [← max_memSize_eq]
    exact exec_storeRegs_fault.mpr ⟨h, rfl⟩

/-- Settles O46: the bytes read are written to V0 to Vx, one after another. -/
theorem loadRegistersFromMemory : Obligations.LoadRegistersFromMemory := by
  intro x s h
  have hlen : ((List.range' s.i.toNat (x.val + 1)).map s.byteAt).length = x.val + 1 := by simp
  have hfits : 0 + ((List.range' s.i.toNat (x.val + 1)).map s.byteAt).length ≤ 16 := by have := x.isLt; omega
  refine ⟨_, exec_loadRegs_inside x s h, fun r hr => ?_, ?_⟩
  · rw [State.reg_setRegsFrom _ _ _ _ hfits, dif_pos ⟨Nat.zero_le _, by omega⟩]
    simp
  · refine (s.onlyChanges_setRegsFrom 0 _ hfits).mono ?_
    rintro _ ⟨r, ⟨-, hr⟩, rfl⟩
    exact ⟨r, by omega, rfl⟩

/-- What a block store that ended in a next state has done: O45, for a store known to have fit. -/
theorem exec_storeRegs_next {x : Reg} {s t : State} (h : exec (.storeRegs x) s = .next t) :
    s.i.toNat + x.val ≤ 0xFFF ∧ t.i = s.i ∧ ∀ r : Reg, r.val ≤ x.val → t.byteAt (s.i.toNat + r.val) = s.reg r := by
  obtain ⟨hin, hout⟩ := storeRegistersToMemory x s
  by_cases hfits : s.i.toNat + x.val ≤ 0xFFF
  · obtain ⟨t', ht', hbytes, hframe⟩ := hin hfits
    obtain rfl : t' = t := Host.Outcome.next.inj (ht'.symm.trans h)
    exact ⟨hfits, hframe .i (by simp), hbytes⟩
  · rw [hout (by omega)] at h
    cases h

/-- Settles O47: the load reads at the same I the bytes the store left there. -/
theorem storeThenLoadRestores : Obligations.StoreThenLoadRestores := by
  intro x s t v h
  obtain ⟨hfits, hi, hbytes⟩ := exec_storeRegs_next h
  obtain ⟨u, hu, hregs, -⟩ := loadRegistersFromMemory x { t with v := v } (hi ▸ hfits)
  refine ⟨u, hu, fun r hr => (hregs r hr).trans ?_⟩
  rw [← hbytes r hr, ← hi]
  rfl

/-- Settles O48: the two bytes the fetch reads are those the store left. -/
theorem storedWordIsFetched : Obligations.StoredWordIsFetched := by
  intro x r q s t p h hq hqx hp
  obtain ⟨hfits, -, hbytes⟩ := exec_storeRegs_next h
  have hlow : t.byteAt p.toNat = s.reg r := by rw [hp]; exact hbytes r (by omega)
  have hhigh : t.byteAt (p.toNat + 1) = s.reg q := by rw [hp, add_assoc, ← hq]; exact hbytes q hqx
  rcases (t.setPc p).fetch_spec with ⟨-, hf⟩ | ⟨hout, -⟩
  · refine ⟨_, hf, ?_⟩
    rw [wordOfBytes_toNat, State.setPc_byteAt, State.setPc_byteAt, State.setPc_pc, hlow, hhigh]
  · rw [State.setPc_pc, Config.memSize] at hout
    omega

end Sys2Proof
end

section
/-! PROOF. O50, O51: the draw of 47_display.md section 1. What one draw does to a pixel is an exclusive or with a bit of the
sprite, so the second draw of the same bits undoes the first. -/

namespace Sys2Proof.Machine

/-- The same sprite drawn twice (47_display.md section 1). -/
theorem Display.applySprite_applySprite {x0 : Nat} (hx : x0 < 64) (r : Nat) (bs : List Byte) (d : Display) :
    Display.applySprite x0 r bs (Display.applySprite x0 r bs d) = d := by
  apply Display.ext_pixel
  intro r' c'
  rw [Display.pixel_applySprite x0 hx, Display.pixel_applySprite x0 hx, Bool.xor_assoc, Bool.xor_self, Bool.xor_false]

/-- The sprite does not depend on the framebuffer it is drawn on. -/
theorem exec_drw_setFb (x y : Reg) (n : BitVec 4) (s : State) (d : Display)
    (h : n.toNat = 0 ∨ s.i.toNat + n.toNat ≤ 4096) :
    exec (.drw x y n) (s.setFb d) = .next (s.setFb (Display.applySprite (anchorCol (s.reg x)) (anchorRow (s.reg y))
      ((List.range' s.i.toNat n.toNat).map s.byteAt) d)) :=
  exec_drw_inside x y n (s.setFb d) h

/-- A draw that ended in a next state read its bytes inside memory. -/
theorem exec_drw_next_inside {x y : Reg} {n : BitVec 4} {s t : State} (h : exec (.drw x y n) s = .next t) :
    n.toNat = 0 ∨ s.i.toNat + n.toNat ≤ 4096 := by
  by_contra hout
  rw [exec_drw_fault.mpr ⟨by omega, by rw [Config.memSize]; omega, rfl⟩] at h
  cases h

end Sys2Proof.Machine

namespace Sys2Proof

open Machine

/-- Settles O50: row `r - anchor` of the sprite is the byte at that offset from I, and lies over row `r`. -/
theorem drawFlipsUnderOneBits : Obligations.DrawFlipsUnderOneBits := by
  intro x y n s h
  refine ⟨_, exec_drw_inside x y n s h, fun r c => ?_, s.onlyChanges_setFb _⟩
  rw [State.pixel, State.setFb_fb, Display.pixel_applySprite _ (anchorCol_lt _)]
  simp only [List.length_map, List.length_range', List.getElem_map, List.getElem_range', one_mul, rowBit, anchorCol,
    anchorRow, Config.displayW, Config.displayH]
  split
  · rename_i hrow
    simp only [hrow, true_and]
    rfl
  · rename_i hrow
    rw [decide_eq_false fun hall => hrow ⟨hall.1, hall.2.1, hall.2.2.1⟩, Bool.false_and]
    rfl

/-- Settles O51: the first draw changes neither the operands nor the bytes, so the second draws the same sprite. -/
theorem drawTwiceRestores : Obligations.DrawTwiceRestores := by
  intro x y n s t h
  have hin := exec_drw_next_inside h
  rw [exec_drw_inside x y n s hin] at h
  obtain rfl := Host.Outcome.next.inj h
  rw [exec_drw_setFb x y n s _ hin, Display.applySprite_applySprite (anchorCol_lt _)]
  rfl

end Sys2Proof
end

section
/-! PROOF. O18, O19, O20, O22, O23: the rules over all instructions. `Update` lists the updates an instruction can end in,
each with the class of instructions that makes it; every instruction ends in one of them or stops, and the rules are read off
the list. -/

namespace Sys2Proof.Machine

/-- The machines an instruction can leave, by what it wrote. -/
inductive Update (i : Instr) (s : State) : State → Prop
  /-- a jump, a skip or the wait for a key -/
  | pc (a : Word) : i.WritesPc → Update i s (s.setPc a)
  /-- a call or a return -/
  | stack (l : List Word) (a : Word) : i.UsesStack → i.WritesPc → Update i s ((s.setStack l).setPc a)
  /-- one register, no flag -/
  | reg (x : Reg) (b : Byte) : i.IsDest x → Update i s (s.setReg x b)
  /-- a block load, from V0 on -/
  | regs (bs : List Byte) : bs.length ≤ 16 → (∀ r : Reg, r.val < bs.length → i.IsDest r) →
      Update i s (State.setRegsFrom 0 bs s)
  /-- one register and the flag -/
  | flagged (x : Reg) (b : Byte) (flag : Bool) : i.IsDest x → i.WritesFlag → Update i s (s.setRegAndFlag x b flag)
  /-- I, no flag -/
  | index (a : Word) : i.WritesIndex → Update i s (s.setI a)
  /-- I and the flag -/
  | indexFlagged (a : Word) (flag : Bool) : i.WritesIndex → i.WritesFlag →
      Update i s ((s.setI a).setReg VF (if flag then 1 else 0))
  /-- the delay timer -/
  | dt (x : Reg) (b : Byte) : i = .ldDtVx x → Update i s (s.setDt b)
  /-- the sound timer -/
  | st (x : Reg) (b : Byte) : i = .ldStVx x → Update i s (s.setSt b)
  /-- the framebuffer, under the pixels the instruction may draw -/
  | fb (d : Display) : (∀ r c, ¬ i.MayDraw s r c → Display.pixel d r c = s.pixel r c) → Update i s (s.setFb d)
  /-- a run of bytes inside memory -/
  | mem (a : Nat) (bs : List Byte) : a + bs.length ≤ Config.memSize → (∀ k, InRun a bs.length k → i.StoresTo s k) →
      Update i s (s.setMem (Memory.putRun a bs s.mem))

/-- A sprite leaves every pixel outside its rows and its eight columns (R201, R203). -/
theorem Display.pixel_applySprite_outside {x0 r r' c' : Nat} (hx : x0 < 64) (bs : List Byte) (d : Display)
    (h : ¬ (InRun r bs.length r' ∧ InRun x0 8 c')) :
    Display.pixel (Display.applySprite x0 r bs d) r' c' = Display.pixel d r' c' := by
  rw [Display.pixel_applySprite x0 hx]
  split
  · rename_i hrow
    have hcol : ¬ (x0 ≤ c' ∧ c' < x0 + 8 ∧ c' < 64) := fun hcol =>
      h ⟨⟨hrow.1, hrow.2.1⟩, ⟨hcol.1, hcol.2.1⟩⟩
    rw [rowBit, decide_eq_false hcol, Bool.false_and, Bool.xor_false]
  · rw [Bool.xor_false]

/-- The draw is an update of the framebuffer, or stops. -/
theorem exec_drw_cases (x y : Reg) (n : BitVec 4) (s : State) :
    (∃ t, exec (.drw x y n) s = .next t ∧ Update (.drw x y n) s t) ∨ ∃ f, exec (.drw x y n) s = .fault f := by
  by_cases h : n.toNat = 0 ∨ s.i.toNat + n.toNat ≤ 4096
  · refine .inl ⟨_, exec_drw_inside x y n s h, .fb _ fun r c hrc => ?_⟩
    exact Display.pixel_applySprite_outside (anchorCol_lt _) _ _ (by simpa [Instr.MayDraw] using hrc)
  · exact .inr ⟨_, exec_drw_fault.mpr ⟨by omega, by rw [Config.memSize]; omega, rfl⟩⟩

/-- BCD is an update of three bytes, or stops. -/
theorem exec_ldB_cases (x : Reg) (s : State) :
    (∃ t, exec (.ldB x) s = .next t ∧ Update (.ldB x) s t) ∨ ∃ f, exec (.ldB x) s = .fault f := by
  by_cases h : s.i.toNat ≤ 0xFFD
  · exact .inl ⟨_, exec_ldB_inside x s h, .mem _ _ (by rw [bcdDigits_length, Config.memSize]; omega) fun _ hk => hk⟩
  · exact .inr ⟨_, exec_ldB_fault.mpr ⟨by omega, rfl⟩⟩

/-- The block store is an update of x + 1 bytes, or stops. -/
theorem exec_storeRegs_cases (x : Reg) (s : State) :
    (∃ t, exec (.storeRegs x) s = .next t ∧ Update (.storeRegs x) s t) ∨ ∃ f, exec (.storeRegs x) s = .fault f := by
  by_cases h : s.i.toNat + x.val ≤ 0xFFF
  · refine .inl ⟨_, exec_storeRegs_inside x s h, .mem _ _ ?_ fun k hk => ?_⟩
    · rw [State.regsUpTo_length, Config.memSize]; omega
    · rwa [State.regsUpTo_length] at hk
  · exact .inr ⟨_, exec_storeRegs_fault.mpr ⟨by omega, rfl⟩⟩

/-- The block load is an update of V0 to Vx, or stops. -/
theorem exec_loadRegs_cases (x : Reg) (s : State) :
    (∃ t, exec (.loadRegs x) s = .next t ∧ Update (.loadRegs x) s t) ∨ ∃ f, exec (.loadRegs x) s = .fault f := by
  by_cases h : s.i.toNat + x.val ≤ 0xFFF
  · refine .inl ⟨_, exec_loadRegs_inside x s h, .regs _ (by simp) fun r hr => ?_⟩
    have hr' : r.val < x.val + 1 := by simpa using hr
    exact Nat.le_of_lt_succ hr'
  · exact .inr ⟨_, exec_loadRegs_fault.mpr ⟨by omega, rfl⟩⟩

/-- The return is an update of the stack and PC, or stops. -/
theorem exec_ret_cases (s : State) :
    (∃ t, exec .ret s = .next t ∧ Update .ret s t) ∨ ∃ f, exec .ret s = .fault f := by
  cases h : s.stack with
  | nil => exact .inr ⟨_, exec_ret_fault.mpr ⟨h, rfl⟩⟩
  | cons a rest => exact .inl ⟨_, exec_ret_cons h, .stack rest a trivial trivial⟩

/-- A skip is an update of PC. -/
theorem Update.skipIf {i : Instr} {s : State} (c : Bool) (h : i.WritesPc) : Update i s (s.skipIf c) := by
  rw [State.skipIf_eq]
  exact .pc _ h

/-- Everything an instruction can do: leave the machine with one update, or stop. -/
theorem exec_cases (i : Instr) (s : State) :
    (∃ t, exec i s = .next t ∧ Update i s t) ∨ ∃ f, exec i s = .fault f := by
  cases i with
  | cls => exact .inl ⟨_, exec_cls s, .fb _ fun _ _ h => absurd trivial h⟩
  | ret => exact exec_ret_cases s
  | jp nnn => exact .inl ⟨_, exec_jp nnn s, .pc _ trivial⟩
  | call nnn => exact .inl ⟨_, exec_call nnn s, .stack _ _ trivial trivial⟩
  | seImm x nn => exact .inl ⟨_, exec_seImm x nn s, .skipIf _ trivial⟩
  | sneImm x nn => exact .inl ⟨_, exec_sneImm x nn s, .skipIf _ trivial⟩
  | seReg x y => exact .inl ⟨_, exec_seReg x y s, .skipIf _ trivial⟩
  | ldImm x nn => exact .inl ⟨_, exec_ldImm x nn s, .reg _ _ rfl⟩
  | addImm x nn => exact .inl ⟨_, exec_addImm x nn s, .reg _ _ rfl⟩
  | ldReg x y => exact .inl ⟨_, exec_ldReg x y s, .reg _ _ rfl⟩
  | orReg x y => exact .inl ⟨_, exec_orReg x y s, .reg _ _ rfl⟩
  | andReg x y => exact .inl ⟨_, exec_andReg x y s, .reg _ _ rfl⟩
  | xorReg x y => exact .inl ⟨_, exec_xorReg x y s, .reg _ _ rfl⟩
  | addReg x y => exact .inl ⟨_, exec_addReg x y s, .flagged _ _ _ rfl trivial⟩
  | subReg x y => exact .inl ⟨_, exec_subReg x y s, .flagged _ _ _ rfl trivial⟩
  | shr x y => exact .inl ⟨_, exec_shr x y s, .flagged _ _ _ rfl trivial⟩
  | subnReg x y => exact .inl ⟨_, exec_subnReg x y s, .flagged _ _ _ rfl trivial⟩
  | shl x y => exact .inl ⟨_, exec_shl x y s, .flagged _ _ _ rfl trivial⟩
  | sneReg x y => exact .inl ⟨_, exec_sneReg x y s, .skipIf _ trivial⟩
  | ldI nnn => exact .inl ⟨_, exec_ldI nnn s, .index _ trivial⟩
  | jpV0 nnn => exact .inl ⟨_, exec_jpV0 nnn s, .pc _ trivial⟩
  | rnd x nn => exact .inl ⟨_, exec_rnd x nn s, .reg _ _ rfl⟩
  | drw x y n => exact exec_drw_cases x y n s
  | skp x => exact .inl ⟨_, exec_skp x s, .skipIf _ trivial⟩
  | sknp x => exact .inl ⟨_, exec_sknp x s, .skipIf _ trivial⟩
  | ldVxDt x => exact .inl ⟨_, exec_ldVxDt x s, .reg _ _ rfl⟩
  | ldVxK x => exact .inl ⟨_, exec_ldVxK x s, .pc _ trivial⟩
  | ldDtVx x => exact .inl ⟨_, exec_ldDtVx x s, .dt x _ rfl⟩
  | ldStVx x => exact .inl ⟨_, exec_ldStVx x s, .st x _ rfl⟩
  | addI x => exact .inl ⟨_, exec_addI x s, .indexFlagged _ _ trivial trivial⟩
  | ldF x => exact .inl ⟨_, exec_ldF x s, .index _ trivial⟩
  | ldB x => exact exec_ldB_cases x s
  | storeRegs x => exact exec_storeRegs_cases x s
  | loadRegs x => exact exec_loadRegs_cases x s

/-- An instruction that ends in a next state made one update. -/
theorem exec_update {i : Instr} {s t : State} (h : exec i s = .next t) : Update i s t := by
  rcases exec_cases i s with ⟨u, hu, hup⟩ | ⟨f, hf⟩
  · obtain rfl := Host.Outcome.next.inj (hu.symm.trans h)
    exact hup
  · rw [hf] at h
    cases h

/-- A framebuffer write changes only the pixels that differ. -/
theorem State.onlyChanges_setFb_pixels (s : State) (d : Display) :
    s.OnlyChanges (s.setFb d) (∃ r c, Display.pixel d r c ≠ s.pixel r c ∧ · = .pixel r c) := by
  intro p hp
  cases p with
  | pixel r c => exact not_not.mp fun hne => hp ⟨r, c, hne, rfl⟩
  | _ => rfl

/-- A flag writer leaves a flag in VF (10_state.md R31). -/
theorem exec_flagWriter {i : Instr} {s t : State} (h : exec i s = .next t) (hi : i.WritesFlag) :
    ∃ flag : Bool, t.reg VF = if flag then 1 else 0 := by
  cases i with
  | addReg x y => cases h; exact ⟨_, s.setRegAndFlag_VF ..⟩
  | subReg x y => cases h; exact ⟨_, s.setRegAndFlag_VF ..⟩
  | subnReg x y => cases h; exact ⟨_, s.setRegAndFlag_VF ..⟩
  | shr x y => cases h; exact ⟨_, s.setRegAndFlag_VF ..⟩
  | shl x y => cases h; exact ⟨_, s.setRegAndFlag_VF ..⟩
  | addI x => cases h; exact ⟨_, State.reg_setReg_same ..⟩
  | _ => exact hi.elim

end Sys2Proof.Machine

namespace Sys2Proof

open Machine

/-- Settles O18: each update changes the pieces of its class, which is the class of the instruction that made it. -/
theorem instructionsWriteOnlyTheirPieces : Obligations.InstructionsWriteOnlyTheirPieces := by
  intro i s t h
  cases exec_update h with
  | pc a hpc => exact (s.onlyChanges_setPc a).mono (by rintro _ rfl; exact hpc)
  | stack l a hstack hpc =>
    exact ((s.onlyChanges_setStack l).mono (by rintro _ rfl; exact hstack)).trans
      ((State.onlyChanges_setPc _ a).mono (by rintro _ rfl; exact hpc))
  | reg x b hx => exact (s.onlyChanges_setReg x b).mono (by rintro _ rfl; exact .inl hx)
  | regs bs hlen hdest =>
    refine (s.onlyChanges_setRegsFrom 0 bs (by omega)).mono ?_
    rintro _ ⟨r, ⟨-, hr⟩, rfl⟩
    exact .inl (hdest r (by omega))
  | flagged x b flag hx hflag =>
    refine (s.onlyChanges_setRegAndFlag x b flag).mono fun p hp => ?_
    rcases List.mem_pair.mp hp with rfl | rfl
    · exact .inl hx
    · exact .inr ⟨hflag, rfl⟩
  | index a hindex => exact (s.onlyChanges_setI a).mono (by rintro _ rfl; exact hindex)
  | indexFlagged a flag hindex hflag =>
    exact ((s.onlyChanges_setI a).mono (by rintro _ rfl; exact hindex)).trans
      ((State.onlyChanges_setReg _ VF _).mono (by rintro _ rfl; exact .inr ⟨hflag, rfl⟩))
  | dt x b hx => exact (s.onlyChanges_setDt b).mono (by rintro _ rfl; exact ⟨x, hx⟩)
  | st x b hx => exact (s.onlyChanges_setSt b).mono (by rintro _ rfl; exact ⟨x, hx⟩)
  | fb d hd =>
    refine (s.onlyChanges_setFb_pixels d).mono ?_
    rintro _ ⟨r, c, hne, rfl⟩
    exact not_not.mp fun hdraw => hne (hd r c hdraw)
  | mem a bs _ hstore =>
    refine (s.onlyChanges_putRun a bs).mono ?_
    rintro _ ⟨k, hk, rfl⟩
    exact hstore k hk

/-- Settles O19: a flag writer leaves its flag in VF; for the others the frame of O18 keeps VF. -/
theorem flagWritersLeaveZeroOrOne : Obligations.FlagWritersLeaveZeroOrOne := by
  intro i s t h
  constructor
  · intro hi
    obtain ⟨flag, hflag⟩ := exec_flagWriter h hi
    cases flag with
    | false => exact .inl hflag
    | true => exact .inr hflag
  · intro hi hdest
    refine instructionsWriteOnlyTheirPieces i s t h (.reg VF) ?_
    rintro (hd | ⟨hw, -⟩)
    · exact hdest hd
    · exact hi hw

/-- Settles O20: an instruction updates the machine or stops. -/
theorem noInstructionIsRefused : Obligations.NoInstructionIsRefused := by
  intro i s r h
  rcases exec_cases i s with ⟨t, ht, -⟩ | ⟨f, hf⟩
  · rw [ht] at h; cases h
  · rw [hf] at h; cases h

/-- Settles O22: of the five instructions that can stop, Dxyn and Fx65 stop at a read, exactly when their bytes do not fit. -/
theorem readFaultsExactly : Obligations.ReadFaultsExactly := by
  intro i s a
  rw [← max_memSize_eq]
  constructor
  · intro h
    rcases exec_fault_cases h with rfl | ⟨x, y, n, rfl⟩ | ⟨x, rfl⟩ | ⟨x, rfl⟩ | ⟨x, rfl⟩
    · cases (exec_ret_fault.mp h).2
    · obtain ⟨hn, hout, hf⟩ := exec_drw_fault.mp h
      rw [Config.memSize] at hout
      exact ⟨.inl ⟨x, y, n, rfl, by omega, by omega⟩, Fault.memReadOutOfBounds.inj hf⟩
    · obtain ⟨hout, hf⟩ := exec_loadRegs_fault.mp h
      exact ⟨.inr ⟨x, rfl, hout⟩, Fault.memReadOutOfBounds.inj hf⟩
    · cases (exec_ldB_fault.mp h).2
    · cases (exec_storeRegs_fault.mp h).2
  · rintro ⟨⟨x, y, n, rfl, hn, hout⟩ | ⟨x, rfl, hout⟩, rfl⟩
    · exact exec_drw_fault.mpr ⟨by omega, by rw [Config.memSize]; omega, rfl⟩
    · exact exec_loadRegs_fault.mpr ⟨hout, rfl⟩

/-- Settles O23: of the five instructions that can stop, 00EE alone underflows; its own address is two below PC. -/
theorem stackUnderflowExactly : Obligations.StackUnderflowExactly := by
  intro i s a
  constructor
  · intro h
    rcases exec_fault_cases h with rfl | ⟨x, y, n, rfl⟩ | ⟨x, rfl⟩ | ⟨x, rfl⟩ | ⟨x, rfl⟩
    · obtain ⟨hempty, hf⟩ := exec_ret_fault.mp h
      obtain rfl := Fault.stackUnderflow.inj hf
      exact ⟨rfl, hempty, s.instrAddr_add_two⟩
    · cases (exec_drw_fault.mp h).2.2
    · cases (exec_loadRegs_fault.mp h).2
    · cases (exec_ldB_fault.mp h).2
    · cases (exec_storeRegs_fault.mp h).2
  · rintro ⟨rfl, hempty, ha⟩
    refine exec_ret_fault.mpr ⟨hempty, ?_⟩
    rw [State.instrAddr, ← ha, BitVec.add_sub_cancel]

end Sys2Proof
end

section
/-! PROOF. O53, O54, O57: the host's loads of 70_reset_and_hazards.md section 2, and HALTED in the view of `get_state`. -/

namespace Sys2Proof.Machine

theorem transact_step (wreck s : State) (inp : StepInput) :
    transact wreck (.step inp) s = settleStep wreck s (stepWith inp s) := rfl

/-- `write_font` of a buffer of the right length (R264). -/
theorem transact_writeFont_done (wreck s : State) {bytes : List Byte} (h : bytes.length = 80) :
    transact wreck (.writeFont bytes) s = (s.setMem (Memory.putRun Config.fontBase bytes s.mem), .done) := by
  rw [transact, State.writeFont, fontWellFormed, h]
  rfl

/-- `write_font` of any other buffer (log entry 14). -/
theorem transact_writeFont_refused (wreck s : State) {bytes : List Byte} (h : bytes.length ≠ 80) :
    transact wreck (.writeFont bytes) s = (s, .refused (.fontBufferLength bytes.length)) := by
  rw [transact, State.writeFont, fontWellFormed, beq_false_of_ne h]
  rfl

/-- `load_program` of a program that fits (R265). -/
theorem transact_loadProgram_done (wreck s : State) {bytes : List Byte} (h : bytes.length ≤ 2048) :
    transact wreck (.loadProgram bytes) s =
      ((s.setMem (Memory.putRun Config.programBase bytes s.mem)).setPc 0x200, .done) := by
  rw [transact, State.loadProgram, programWellFormed, decide_eq_true h]
  rfl

/-- `load_program` of a program that does not fit (R265). -/
theorem transact_loadProgram_tooLarge (wreck s : State) {bytes : List Byte} (h : bytes.length > 2048) :
    transact wreck (.loadProgram bytes) s = (s, .programTooLarge) := by
  rw [transact, State.loadProgram, programWellFormed, decide_eq_false (Nat.not_le_of_gt h)]
  rfl

end Sys2Proof.Machine

namespace Sys2Proof

open Machine

/-- Settles O53: the buffer is one run of writes, or nothing is written. -/
theorem writeFontPlacesGlyphs : Obligations.WriteFontPlacesGlyphs := by
  intro s wreck bytes
  refine ⟨fun h => ⟨_, transact_writeFont_done wreck s h, s.byteAt_putRun _ bytes, ?_⟩,
    transact_writeFont_refused wreck s⟩
  have hframe := s.onlyChanges_putRun Config.fontBase bytes
  rwa [h] at hframe

/-- Settles O54: the program is one run of writes and one of PC, or nothing is written. -/
theorem loadProgramIsAllOrNothing : Obligations.LoadProgramIsAllOrNothing := by
  intro s wreck bytes
  refine ⟨fun h => ⟨_, transact_loadProgram_done wreck s h, rfl, s.byteAt_putRun _ bytes, ?_⟩,
    transact_loadProgram_tooLarge wreck s⟩
  exact ((s.onlyChanges_putRun Config.programBase bytes).mono fun _ => .inr).trans
    ((State.onlyChanges_setPc _ _).mono fun _ => .inl)

/-- Settles O57: the view is of the state as it stands, which a fatal step leaves halted and a reset does not. -/
theorem getStateShowsHalted : Obligations.GetStateShowsHalted := by
  refine ⟨fun s wreck => ⟨s.view, rfl, s.view_halted⟩, fun s wreck inp f h => ?_,
    fun s wreck => ⟨s.hostReset.view, rfl, rfl⟩⟩
  rw [transact_step, h]
  exact ⟨_, rfl, rfl⟩

end Sys2Proof
end

section
/-! PROOF. O13, O14, O15, O16, O17: the invariant of the machine, what reset leaves, and the uniqueness of the canonical
memory (log entry 7). An instruction writes memory in one run inside it and no accumulator, so the invariant passes from the
ticked machine to the next state. -/

namespace Sys2Proof.Machine

/-- The canonical form survives every update. -/
theorem Update.mem_wf {i : Instr} {s t : State} (h : Update i s t) (hs : Memory.wf s.mem = true) :
    Memory.wf t.mem = true := by
  cases h with
  | mem a bs hin _ => exact Memory.wf_putRun bs a s.mem hin hs
  | regs bs _ _ =>
    obtain ⟨v, hv⟩ := State.setRegsFrom_rest bs 0 s
    rw [hv]
    exact hs
  | _ => exact hs

/-- An instruction keeps the invariant. -/
theorem exec_keeps_inv {i : Instr} {s t : State} (h : exec i s = .next t) (hs : s.Inv) : t.Inv := by
  obtain ⟨hmem, hdt, hst⟩ := hs
  have frame := instructionsWriteOnlyTheirPieces i s t h
  have hdtAcc : t.dtAcc = s.dtAcc := frame .dtAcc id
  have hstAcc : t.stAcc = s.stAcc := frame .stAcc id
  exact ⟨(exec_update h).mem_wf hmem, hdtAcc ▸ hdt, hstAcc ▸ hst⟩

/-- The tick leaves both accumulators below one period (R27). -/
theorem State.beginStep_inv {s : State} (inp : StepInput) (hs : s.Inv) : (s.beginStep inp).Inv :=
  ⟨hs.1, accAfter_lt _ _, accAfter_lt _ _⟩

/-- A step that ends in a next state keeps the invariant. -/
theorem stepWith_keeps_inv {inp : StepInput} {s t : State} (h : stepWith inp s = .next t) (hs : s.Inv) : t.Inv := by
  have hready : (s.beginStep inp).advance.Inv := State.beginStep_inv inp hs
  obtain ⟨-, w, -, ⟨-, rfl⟩ | ⟨i, -, hi⟩⟩ := stepWith_next h
  · exact hready
  · exact exec_keeps_inv hi hready

/-- A run of writes inside memory keeps the invariant. -/
theorem State.setMem_putRun_inv {s : State} {a : Nat} {bs : List Byte} (h : a + bs.length ≤ Config.memSize)
    (hs : s.Inv) : (s.setMem (Memory.putRun a bs s.mem)).Inv :=
  ⟨Memory.wf_putRun bs a s.mem h hs.1, hs.2⟩

theorem State.reset_inv : State.reset.Inv := by decide

theorem State.reset_reg (r : Reg) : State.reset.reg r = 0 := Vector.getElem_replicate r.isLt

theorem State.reset_pixel (r c : Nat) : State.reset.pixel r c = false := Display.pixel_clear r c

/-- A canonical memory with an entry reads another byte than a memory empty below the entry. -/
theorem Memory.byteAt_head_ne {c : Host.Cell} {rest m' : Memory} {lo lo' : Nat}
    (hm : Memory.wfFrom lo (c :: rest) = true) (hm' : Memory.wfFrom lo' m' = true) (hlt : c.1 < lo') :
    Memory.byteAt c.1 (c :: rest) ≠ Memory.byteAt c.1 m' := by
  rw [Memory.byteAt, if_pos rfl, Memory.byteAt_below m' lo' c.1 hm' hlt]
  exact ((Memory.wfFrom_cons ..).mp hm).2.2.1

/-- Canonical memories, from one address on, that read the same: both list first the lowest address that does not read as
the reset byte. -/
theorem Memory.eq_of_byteAt (m : Memory) : ∀ (m' : Memory) (lo : Nat), Memory.wfFrom lo m = true →
    Memory.wfFrom lo m' = true → (∀ a, Memory.byteAt a m = Memory.byteAt a m') → m = m' := by
  induction m with
  | nil =>
    intro m' lo _ hm' h
    cases m' with
    | nil => rfl
    | cons d rest' => exact absurd (h d.1).symm (Memory.byteAt_head_ne hm' (lo' := d.1 + 1) rfl (Nat.lt_succ_self _))
  | cons c rest ih =>
    intro m' lo hm hm' h
    cases m' with
    | nil => exact absurd (h c.1) (Memory.byteAt_head_ne hm (lo' := c.1 + 1) rfl (Nat.lt_succ_self _))
    | cons d rest' =>
      obtain ⟨-, hc, hcne, hrest⟩ := (Memory.wfFrom_cons ..).mp hm
      obtain ⟨-, hd, hdne, hrest'⟩ := (Memory.wfFrom_cons ..).mp hm'
      have hfrom : Memory.wfFrom c.1 (c :: rest) = true := (Memory.wfFrom_cons ..).mpr ⟨le_rfl, hc, hcne, hrest⟩
      have hfrom' : Memory.wfFrom d.1 (d :: rest') = true := (Memory.wfFrom_cons ..).mpr ⟨le_rfl, hd, hdne, hrest'⟩
      have haddr : c.1 = d.1 := by
        rcases Nat.lt_trichotomy c.1 d.1 with hlt | heq | hgt
        · exact absurd (h c.1) (Memory.byteAt_head_ne hm hfrom' hlt)
        · exact heq
        · exact absurd (h d.1).symm (Memory.byteAt_head_ne hm' hfrom hgt)
      have hbyte : c.2 = d.2 := by
        have hhead := h c.1
        rwa [Memory.byteAt, if_pos rfl, Memory.byteAt, if_pos haddr.symm] at hhead
      have hread : ∀ a, Memory.byteAt a rest = Memory.byteAt a rest' := by
        intro a
        rcases Nat.lt_or_ge c.1 a with hlt | hge
        · have htail := h a
          rwa [Memory.byteAt, if_neg hlt.ne, Memory.byteAt, if_neg (haddr ▸ hlt.ne)] at htail
        · rw [Memory.byteAt_below rest _ a hrest (by omega), Memory.byteAt_below rest' _ a hrest' (by omega)]
      rw [Prod.ext haddr hbyte, ih rest' (c.1 + 1) hrest (haddr ▸ hrest') hread]

end Sys2Proof.Machine

namespace Sys2Proof

open Machine

/-- Settles O13: taking the input touches no piece of the invariant, and the step with that input keeps it. -/
theorem stepKeepsInvariant : Obligations.StepKeepsInvariant := by
  intro s t hs h
  have htake : s.takeInput.Inv := hs
  exact stepWith_keeps_inv h htake

/-- Settles O14: a step leaves a next state, a halted wreck or the machine as it was; the loads write inside memory. -/
theorem hostOperationsKeepInvariant : Obligations.HostOperationsKeepInvariant := by
  intro s wreck op hs hwreck
  cases op with
  | step inp =>
    rw [transact_step]
    cases h : stepWith inp s with
    | next t => exact stepWith_keeps_inv h hs
    | fault f => exact hwreck
    | refused r => exact hs
  | getState => exact hs
  | writeFont bytes =>
    by_cases h : bytes.length = 80
    · rw [transact_writeFont_done wreck s h]
      exact State.setMem_putRun_inv (by rw [h]; decide) hs
    · rw [transact_writeFont_refused wreck s h]
      exact hs
  | loadProgram bytes =>
    by_cases h : bytes.length ≤ 2048
    · rw [transact_loadProgram_done wreck s h]
      exact State.setMem_putRun_inv (by rw [Config.programBase, Config.memSize]; omega) hs
    · rw [transact_loadProgram_tooLarge wreck s (by omega)]
      exact hs
  | reset => exact State.reset_inv

/-- Settles O15: the reset memory lists nothing, and both accumulators are 0. -/
theorem resetMeetsInvariant : Obligations.ResetMeetsInvariant := State.reset_inv

/-- Settles O16: each piece of the reset operation's machine is that of `State.reset`. -/
theorem resetValues : Obligations.ResetValues := by
  refine ⟨fun _ _ => rfl, fun t ht => ?_⟩
  rcases ht with rfl | ⟨s, wreck, rfl⟩ <;>
    exact ⟨State.reset_reg, rfl, rfl, rfl, rfl, rfl, rfl, rfl, rfl, State.reset_pixel, fun _ => rfl, rfl⟩

/-- Settles O17: from address 0 on. -/
theorem canonicalMemoryIsUnique : Obligations.CanonicalMemoryIsUnique := fun m m' hm hm' h =>
  Memory.eq_of_byteAt m m' 0 hm hm' h

end Sys2Proof
end

section
/-! PROOF. O7, O8, O9, O10, O11, O12, O55: the step cycle of 30_encoding.md section 3 and its transaction. What a step does
is settled by the word fetched at PC; `State.ready` is the machine it is dispatched on. -/

namespace Sys2Proof.Machine

/-- The machine the fetched instruction runs on: this step's input taken, keys latched, timers ticked, PC advanced (R81). -/
def State.ready (s : State) : State := (s.takeInput.beginStep s.nextInput).advance

/-- What precedes the fetch changes neither PC nor memory. -/
theorem State.fetch_beginStep (s : State) (inp : StepInput) : (s.beginStep inp).fetch = s.fetch := rfl

theorem State.fetch_takeInput (s : State) : s.takeInput.fetch = s.fetch := rfl

/-- The fetch reads the big-endian word at PC (R71). -/
theorem State.fetch_eq_ok {s : State} {w : Word} (hpc : s.pc.toNat + 1 < 4096)
    (hw : w.toNat = 256 * (s.byteAt s.pc.toNat).toNat + (s.byteAt (s.pc.toNat + 1)).toNat) : s.fetch = .ok w := by
  rcases s.fetch_spec with ⟨-, hf⟩ | ⟨hout, -⟩
  · rw [hf]
    exact congrArg Except.ok (BitVec.eq_of_toNat_eq ((wordOfBytes_toNat _ _).trans hw.symm))
  · rw [Config.memSize] at hout
    omega

theorem step_of_running {s : State} (hh : s.halted = false) :
    step s = fetchAndDispatch (s.takeInput.beginStep s.nextInput) := if_neg (by simp [hh])

/-- A step whose fetch answers a word dispatches it. -/
theorem step_of_fetch {s : State} {w : Word} (hh : s.halted = false) (hf : s.fetch = .ok w) :
    step s = dispatch w s.ready := by
  rw [step_of_running hh, fetchAndDispatch, State.fetch_beginStep, State.fetch_takeInput, hf]
  rfl

theorem dispatch_of_ok {w : Word} {i : Instr} (h : decodeWord w = .ok i) (s : State) : dispatch w s = exec i s := by
  rw [dispatch, h]

theorem dispatch_of_error {w : Word} {e : Reject} (h : decodeWord w = .error e) (s : State) :
    dispatch w s = .next (s.takeUnsupported w) := by
  rw [dispatch, h]

theorem State.ready_pc_toNat {s : State} (hpc : s.pc.toNat + 1 < 4096) : s.ready.pc.toNat = s.pc.toNat + 2 := by
  show (s.pc + 2).toNat = s.pc.toNat + 2
  rw [BitVec.toNat_add]
  exact Nat.mod_eq_of_lt (by show s.pc.toNat + 2 < 65536; omega)

theorem State.ready_dt_toNat (s : State) :
    s.ready.dt.toNat = s.dt.toNat - (s.dtAcc + s.nextInput.elapsed) / 17000000 := decay_toNat _ _

theorem State.ready_st_toNat (s : State) :
    s.ready.st.toNat = s.st.toNat - (s.stAcc + s.nextInput.elapsed) / 17000000 := decay_toNat _ _

/-- The pieces a step changes before its instruction runs. -/
theorem State.onlyChanges_ready (s : State) : s.OnlyChanges s.ready
    (fun p => p ∈ [.pc, .key, .rnd, .report, .dt, .dtAcc, .st, .stAcc, .pending, .stepCount]) := by
  intro p hp
  cases p with
  | reg r => rfl
  | i => rfl
  | stack => rfl
  | pixel r c => rfl
  | byte a => rfl
  | halted => rfl
  | _ => simp at hp

theorem State.onlyChanges_takeUnsupported (s : State) (w : Word) :
    s.OnlyChanges (s.takeUnsupported w) (· = .report) := by
  intro p hp
  cases p with
  | report => exact absurd rfl hp
  | _ => rfl

/-- A halted core takes no step (R225). -/
theorem stepWith_of_halted {s : State} (inp : StepInput) (hh : s.halted = true) :
    stepWith inp s = .refused .coreHalted := if_pos hh

/-- No operation of the host but reset clears HALTED (R225). -/
theorem transact_keeps_halted (wreck : State) {s : State} {op : HostOp} (hh : s.halted = true) (hop : op ≠ .reset) :
    (transact wreck op s).1.halted = true := by
  cases op with
  | step inp => rw [transact_step, stepWith_of_halted inp hh]; exact hh
  | getState => exact hh
  | writeFont bytes =>
    by_cases h : bytes.length = 80
    · rw [transact_writeFont_done wreck s h]; exact hh
    · rw [transact_writeFont_refused wreck s h]; exact hh
  | loadProgram bytes =>
    by_cases h : bytes.length ≤ 2048
    · rw [transact_loadProgram_done wreck s h]; exact hh
    · rw [transact_loadProgram_tooLarge wreck s (by omega)]; exact hh
  | reset => exact absurd rfl hop

/-- Every address an instruction's fault records fits 16 bits (R226). -/
theorem exec_fault_addr_lt {i : Instr} {s : State} {f : Fault} (h : exec i s = .fault f) : f.addr < 65536 := by
  have hmax : max s.i.toNat Config.memSize < 65536 := max_lt s.i.isLt (by decide)
  rcases exec_fault_cases h with rfl | ⟨x, y, n, rfl⟩ | ⟨x, rfl⟩ | ⟨x, rfl⟩ | ⟨x, rfl⟩
  · obtain ⟨-, rfl⟩ := exec_ret_fault.mp h
    exact s.instrAddr.isLt
  · obtain ⟨-, -, rfl⟩ := exec_drw_fault.mp h
    exact hmax
  · obtain ⟨-, rfl⟩ := exec_loadRegs_fault.mp h
    exact hmax
  · obtain ⟨-, rfl⟩ := exec_ldB_fault.mp h
    exact hmax
  · obtain ⟨-, rfl⟩ := exec_storeRegs_fault.mp h
    exact hmax

/-- Every address a step's fault records fits 16 bits: that of the fetch, or that of the instruction. -/
theorem stepWith_fault_addr_lt {inp : StepInput} {s : State} {f : Fault} (h : stepWith inp s = .fault f) :
    f.addr < 65536 := by
  rcases stepWith_cases inp s with ⟨-, e⟩ | ⟨-, g, hf, e⟩ | ⟨-, w, -, -, e⟩ | ⟨-, w, i, -, -, e⟩
  · rw [e] at h; cases h
  · obtain rfl := Host.Outcome.fault.inj (e.symm.trans h)
    rcases (s.beginStep inp).fetch_spec with ⟨-, hok⟩ | ⟨-, herr⟩
    · rw [hok] at hf; cases hf
    · rw [herr] at hf
      obtain rfl := Except.error.inj hf
      exact max_lt s.pc.isLt (by decide)
  · rw [e] at h; cases h
  · exact exec_fault_addr_lt (e.symm.trans h)

/-- The table's bits of a word are the word. -/
theorem tableWord_toNat (w : Word) : tableWord 16 w.toNat = w := by
  rw [tableWord, Nat.mod_eq_of_lt w.isLt, BitVec.ofNat_toNat, BitVec.setWidth_eq]

@[simp] theorem State.placeWord_halted (s : State) (a : Nat) (w : Word) : (s.placeWord a w).halted = s.halted := by
  unfold State.placeWord
  split <;> rfl

@[simp] theorem State.placeWord_nextInput (s : State) (a : Nat) (w : Word) :
    (s.placeWord a w).nextInput = s.nextInput := by
  unfold State.placeWord
  split <;> rfl

end Sys2Proof.Machine

namespace Sys2Proof

open Machine

/-- Settles O7: the word at PC is fetched and dispatched, on the machine `State.ready`. -/
theorem stepRunsTheDecodedInstruction : Obligations.StepRunsTheDecodedInstruction := by
  intro s w i hh hpc hw hd
  refine ⟨s.ready, ?_, State.ready_pc_toNat hpc, rfl, rfl, rfl, s.ready_dt_toNat, rfl, s.ready_st_toNat, rfl, rfl, rfl,
    s.onlyChanges_ready⟩
  rw [step_of_fetch hh (State.fetch_eq_ok hpc hw), dispatch_of_ok hd]

/-- Settles O8: the word at PC is fetched and reported, on the machine `State.ready`. -/
theorem unsupportedOpcodeIsReportedAndSkipped : Obligations.UnsupportedOpcodeIsReportedAndSkipped := by
  intro s w hh hpc hw hd
  refine ⟨s.ready.takeUnsupported w, ?_, rfl, rfl, State.ready_pc_toNat hpc, rfl, s.ready_dt_toNat, rfl,
    s.ready_st_toNat, rfl, s.onlyChanges_ready.trans ((s.ready.onlyChanges_takeUnsupported w).mono (by simp))⟩
  rw [step_of_fetch hh (State.fetch_eq_ok hpc hw)]
  cases h : decodeWord w with
  | ok i => exact absurd h (hd i)
  | error e => exact dispatch_of_error h s.ready

/-- Settles O9: the fetch stops at the first address past memory, before a word is dispatched. -/
theorem fetchPastMemoryIsFatal : Obligations.FetchPastMemoryIsFatal := by
  intro s hh hpc
  rcases s.fetch_spec with ⟨hin, -⟩ | ⟨-, hf⟩
  · rw [Config.memSize] at hin
    omega
  · rw [step_of_running hh, fetchAndDispatch, State.fetch_beginStep, State.fetch_takeInput, hf]

/-- Settles O10: a halted core refuses the step, and no other operation but reset writes HALTED. -/
theorem onlyResetLeavesHalted : Obligations.OnlyResetLeavesHalted := by
  intro s wreck op hh
  refine ⟨stepWith_of_halted (s := s.takeInput) s.nextInput hh, fun h => ?_, fun h => ?_⟩
  · by_contra hop
    rw [transact_keeps_halted wreck hh hop] at h
    cases h
  · rw [h]
    rfl

/-- Settles O11: the host is answered the report of the fault, whose address fits the word it is put in. -/
theorem fatalOutcomeIsReportedAndHalts : Obligations.FatalOutcomeIsReportedAndHalts := by
  intro s wreck inp f h
  rw [transact_step, h]
  refine ⟨rfl, (Report.fatal f).info, ?_, ?_⟩
  · exact (BitVec.toNat_ofNat _ _).trans (Nat.mod_eq_of_lt (stepWith_fault_addr_lt h))
  · cases f <;> rfl

/-- Settles O12: the word placed is the word fetched, and it decodes to the instruction it encodes. -/
theorem placedInstructionRunsNext : Obligations.PlacedInstructionRunsNext := by
  intro s i hh hpc
  rw [State.withFetchWord, tableWord_toNat]
  have hplaced : (s.placeWord s.pc.toNat (encode i)).halted = false := (s.placeWord_halted ..).trans hh
  rw [step_of_fetch hplaced (s.fetch_placeWord (encode i) hpc), dispatch_of_ok (decodeWord_encode i), State.ready,
    State.placeWord_nextInput]

/-- Settles O55: the reply is the report of the next state, which the step sets before it dispatches and no instruction
changes. -/
theorem stepReplyNamesTheOutcome : Obligations.StepReplyNamesTheOutcome := by
  intro s t wreck inp h
  rw [transact_step, h]
  refine ⟨rfl, ?_⟩
  obtain ⟨-, w, hf, ⟨hd, rfl⟩ | ⟨i, hd, hi⟩⟩ := stepWith_next h
  · exact .inl ⟨w, hd, hf, rfl⟩
  · have hreport : t.report = .ok := instructionsWriteOnlyTheirPieces i _ t hi .report id
    refine .inr ⟨w, i, hd, hf, ?_⟩
    rw [settleStep, hreport]
    rfl

end Sys2Proof
end
